-- ==== Sys2Proof/Word.lean ====
section
/-! DEFINITION. The two widths of the machine: a byte of memory and a 32-bit word (rule R9). -/

namespace Sys2Proof

/-- A byte: 8 bits (R9). -/
abbrev Byte := BitVec 8

/-- A word: 32 bits, the one integer width of the instruction set (R1, R9). -/
abbrev Word := BitVec 32

end Sys2Proof
end

