-- ==== Sys2Proof/Syntax.lean ====
section
/-! DEFINITION. Syntax: register and flag names, mnemonics, operand kinds, and `Instr`, one constructor per row of
spec/opcode_table.json (39 rows: a mnemonic and one of its legal forms, rule R105). -/

namespace Sys2Proof

/-- The sixteen register names of R22, in the order of their codes. -/
inductive Reg where
  | r0 | r1 | r2 | r3 | r4 | r5 | r6 | r7 | r8 | r9 | r10 | r11 | r12 | pc | sp | acc
  deriving DecidableEq, Repr

/-- The five flags of R27, in the order of their codes. -/
inductive Flag where
  | zf | cf | ovf | sf | pf
  deriving DecidableEq, Repr

/-- The twenty mnemonics of R104, in the source's canonical order. -/
inductive Mnemonic where
  | push | pop | mov | load | store | add | sub | mul | div | mod | jump | jumpIfZero | jumpIfCarry
  | cmp | call | ret | test | nop | halt | syscall
  deriving DecidableEq, Repr

/-- The kind of an operand block (R102): `R`, one byte holding a register code, or `W`, four bytes little-endian. -/
inductive Kind where
  | reg | word
  deriving DecidableEq, Repr

/-- A form (R105, R12): the kinds of an instruction's operands, operand 0 first. -/
abbrev Form := List Kind

/-- A decoded operand: a register, or a 32-bit word used as it stands (R107). -/
inductive Operand where
  | reg (r : Reg)
  | word (w : Word)
  deriving DecidableEq, Repr

/-- An instruction as the assembler sees it before the engine's legality check: any mnemonic with any operands
(R136: the assembler does not check operand kinds against the mnemonic). -/
structure Stmt where
  mnemonic : Mnemonic
  operands : List Operand
  deriving DecidableEq, Repr

/-- The instructions the engine executes: one constructor per legal opcode byte (R105), the letters of a name being
the form. -/
inductive Instr where
  | push (r : Reg)
  | pop (r : Reg)
  | movRR (r src : Reg)
  | movRW (r : Reg) (src : Word)
  | load (r : Reg) (addr : Word)
  | store (r : Reg) (addr : Word)
  | addRRR (dst x y : Reg)
  | addRWR (dst : Reg) (x : Word) (y : Reg)
  | addRRW (dst x : Reg) (y : Word)
  | addRWW (dst : Reg) (x y : Word)
  | subRRR (dst x y : Reg)
  | subRWR (dst : Reg) (x : Word) (y : Reg)
  | subRRW (dst x : Reg) (y : Word)
  | subRWW (dst : Reg) (x y : Word)
  | mulRRR (dst x y : Reg)
  | mulRWR (dst : Reg) (x : Word) (y : Reg)
  | mulRRW (dst x : Reg) (y : Word)
  | mulRWW (dst : Reg) (x y : Word)
  | divRRR (dst x y : Reg)
  | divRWR (dst : Reg) (x : Word) (y : Reg)
  | divRRW (dst x : Reg) (y : Word)
  | divRWW (dst : Reg) (x y : Word)
  | modRRR (dst x y : Reg)
  | modRWR (dst : Reg) (x : Word) (y : Reg)
  | modRRW (dst x : Reg) (y : Word)
  | modRWW (dst : Reg) (x y : Word)
  | jump (addr : Word)
  | jumpIfZero (addr : Word)
  | jumpIfCarry (addr : Word)
  | cmpRR (x y : Reg)
  | cmpWR (x : Word) (y : Reg)
  | cmpRW (x : Reg) (y : Word)
  | cmpWW (x y : Word)
  | call (addr : Word)
  | ret
  | test (r : Reg)
  | nop
  | halt
  | syscall
  deriving DecidableEq, Repr

end Sys2Proof
end

