-- ==== Sys2Proof/Machine/Catalogue.lean ====
section
/-! DEFINITION. The Instruction Set Definition (R2 component 2): register and flag codes, operation numbers, arities
and legal forms, and the reading of an `Instr` as a mnemonic with operands. Shared by decoder, encoder and assembler. -/

namespace Sys2Proof

/-- The register's code (R22). -/
def Reg.code : Reg → Nat
  | .r0 => 0 | .r1 => 1 | .r2 => 2 | .r3 => 3 | .r4 => 4 | .r5 => 5 | .r6 => 6 | .r7 => 7
  | .r8 => 8 | .r9 => 9 | .r10 => 10 | .r11 => 11 | .r12 => 12 | .pc => 13 | .sp => 14 | .acc => 15

/-- The register with a code; a code above 15 names no register (R106). -/
def Reg.ofCode : Nat → Option Reg
  | 0 => some .r0 | 1 => some .r1 | 2 => some .r2 | 3 => some .r3 | 4 => some .r4 | 5 => some .r5
  | 6 => some .r6 | 7 => some .r7 | 8 => some .r8 | 9 => some .r9 | 10 => some .r10 | 11 => some .r11
  | 12 => some .r12 | 13 => some .pc | 14 => some .sp | 15 => some .acc
  | _ => none

/-- The flag's code (R27). -/
def Flag.code : Flag → Nat
  | .zf => 0 | .cf => 1 | .ovf => 2 | .sf => 3 | .pf => 4

/-- The operation number `OP` (R104). -/
def Mnemonic.op : Mnemonic → Nat
  | .push => 1 | .pop => 2 | .mov => 3 | .load => 4 | .store => 5
  | .add => 6 | .sub => 7 | .mul => 8 | .div => 9 | .mod => 10
  | .jump => 11 | .jumpIfZero => 12 | .jumpIfCarry => 13 | .cmp => 14 | .call => 15
  | .ret => 16 | .test => 17 | .nop => 18 | .halt => 19 | .syscall => 20

/-- The mnemonic of an operation number; 0 and 21 to 31 are unassigned (R104, R108). -/
def Mnemonic.ofOp : Nat → Option Mnemonic
  | 1 => some .push | 2 => some .pop | 3 => some .mov | 4 => some .load | 5 => some .store
  | 6 => some .add | 7 => some .sub | 8 => some .mul | 9 => some .div | 10 => some .mod
  | 11 => some .jump | 12 => some .jumpIfZero | 13 => some .jumpIfCarry | 14 => some .cmp | 15 => some .call
  | 16 => some .ret | 17 => some .test | 18 => some .nop | 19 => some .halt | 20 => some .syscall
  | _ => none

/-- The operand arity (R104). -/
def Mnemonic.arity : Mnemonic → Nat
  | .push | .pop | .jump | .jumpIfZero | .jumpIfCarry | .call | .test => 1
  | .mov | .load | .store | .cmp => 2
  | .add | .sub | .mul | .div | .mod => 3
  | .ret | .nop | .halt | .syscall => 0

/-- The legal forms (R105). -/
def Mnemonic.legalForms : Mnemonic → List Form
  | .push | .pop | .test => [[.reg]]
  | .mov => [[.reg, .reg], [.reg, .word]]
  | .load | .store => [[.reg, .word]]
  | .add | .sub | .mul | .div | .mod =>
    [[.reg, .reg, .reg], [.reg, .word, .reg], [.reg, .reg, .word], [.reg, .word, .word]]
  | .jump | .jumpIfZero | .jumpIfCarry | .call => [[.word]]
  | .cmp => [[.reg, .reg], [.word, .reg], [.reg, .word], [.word, .word]]
  | .ret | .nop | .halt | .syscall => [[]]

/-- The size of an operand block in bytes (R102). -/
def Kind.size : Kind → Nat
  | .reg => 1
  | .word => 4

/-- The total size of a form's operand blocks. -/
def blocksLength : Form → Nat
  | [] => 0
  | k :: f => k.size + blocksLength f

/-- The length in bytes of an instruction of a form: the opcode byte and its blocks (R103). -/
def formLength (f : Form) : Nat := 1 + blocksLength f

/-- The kind number `K` of a form: `K[i]` is 1 for a word block, operand 0 lowest (R101). -/
def kindBits : Form → Nat
  | [] => 0
  | .reg :: f => 2 * kindBits f
  | .word :: f => 1 + 2 * kindBits f

/-- The form that the low `n` bits of a kind number stand for (R101, R112). -/
def formOfBits : Nat → Nat → Form
  | 0, _ => []
  | n + 1, k => (if k % 2 = 1 then Kind.word else Kind.reg) :: formOfBits n (k / 2)

/-- The kind of an operand. -/
def Operand.kind : Operand → Kind
  | .reg _ => .reg
  | .word _ => .word

/-- The form of a statement: the kinds of its operands. -/
def Stmt.form (t : Stmt) : Form := t.operands.map Operand.kind

/-- An instruction as its mnemonic and its operands in source order (R105). -/
def Instr.toStmt : Instr → Stmt
  | .push r => ⟨.push, [.reg r]⟩
  | .pop r => ⟨.pop, [.reg r]⟩
  | .movRR r src => ⟨.mov, [.reg r, .reg src]⟩
  | .movRW r src => ⟨.mov, [.reg r, .word src]⟩
  | .load r addr => ⟨.load, [.reg r, .word addr]⟩
  | .store r addr => ⟨.store, [.reg r, .word addr]⟩
  | .addRRR dst x y => ⟨.add, [.reg dst, .reg x, .reg y]⟩
  | .addRWR dst x y => ⟨.add, [.reg dst, .word x, .reg y]⟩
  | .addRRW dst x y => ⟨.add, [.reg dst, .reg x, .word y]⟩
  | .addRWW dst x y => ⟨.add, [.reg dst, .word x, .word y]⟩
  | .subRRR dst x y => ⟨.sub, [.reg dst, .reg x, .reg y]⟩
  | .subRWR dst x y => ⟨.sub, [.reg dst, .word x, .reg y]⟩
  | .subRRW dst x y => ⟨.sub, [.reg dst, .reg x, .word y]⟩
  | .subRWW dst x y => ⟨.sub, [.reg dst, .word x, .word y]⟩
  | .mulRRR dst x y => ⟨.mul, [.reg dst, .reg x, .reg y]⟩
  | .mulRWR dst x y => ⟨.mul, [.reg dst, .word x, .reg y]⟩
  | .mulRRW dst x y => ⟨.mul, [.reg dst, .reg x, .word y]⟩
  | .mulRWW dst x y => ⟨.mul, [.reg dst, .word x, .word y]⟩
  | .divRRR dst x y => ⟨.div, [.reg dst, .reg x, .reg y]⟩
  | .divRWR dst x y => ⟨.div, [.reg dst, .word x, .reg y]⟩
  | .divRRW dst x y => ⟨.div, [.reg dst, .reg x, .word y]⟩
  | .divRWW dst x y => ⟨.div, [.reg dst, .word x, .word y]⟩
  | .modRRR dst x y => ⟨.mod, [.reg dst, .reg x, .reg y]⟩
  | .modRWR dst x y => ⟨.mod, [.reg dst, .word x, .reg y]⟩
  | .modRRW dst x y => ⟨.mod, [.reg dst, .reg x, .word y]⟩
  | .modRWW dst x y => ⟨.mod, [.reg dst, .word x, .word y]⟩
  | .jump addr => ⟨.jump, [.word addr]⟩
  | .jumpIfZero addr => ⟨.jumpIfZero, [.word addr]⟩
  | .jumpIfCarry addr => ⟨.jumpIfCarry, [.word addr]⟩
  | .cmpRR x y => ⟨.cmp, [.reg x, .reg y]⟩
  | .cmpWR x y => ⟨.cmp, [.word x, .reg y]⟩
  | .cmpRW x y => ⟨.cmp, [.reg x, .word y]⟩
  | .cmpWW x y => ⟨.cmp, [.word x, .word y]⟩
  | .call addr => ⟨.call, [.word addr]⟩
  | .ret => ⟨.ret, []⟩
  | .test r => ⟨.test, [.reg r]⟩
  | .nop => ⟨.nop, []⟩
  | .halt => ⟨.halt, []⟩
  | .syscall => ⟨.syscall, []⟩

/-- `ADD dst, x, y` in whichever of its four legal forms the kinds of `x` and `y` give (R190). -/
def Instr.add (dst : Reg) : Operand → Operand → Instr
  | .reg x, .reg y => .addRRR dst x y
  | .word x, .reg y => .addRWR dst x y
  | .reg x, .word y => .addRRW dst x y
  | .word x, .word y => .addRWW dst x y

/-- `SUB dst, x, y` in its four forms (R190). -/
def Instr.sub (dst : Reg) : Operand → Operand → Instr
  | .reg x, .reg y => .subRRR dst x y
  | .word x, .reg y => .subRWR dst x y
  | .reg x, .word y => .subRRW dst x y
  | .word x, .word y => .subRWW dst x y

/-- `MUL dst, x, y` in its four forms (R190). -/
def Instr.mul (dst : Reg) : Operand → Operand → Instr
  | .reg x, .reg y => .mulRRR dst x y
  | .word x, .reg y => .mulRWR dst x y
  | .reg x, .word y => .mulRRW dst x y
  | .word x, .word y => .mulRWW dst x y

/-- `DIV dst, x, y` in its four forms (R190). -/
def Instr.div (dst : Reg) : Operand → Operand → Instr
  | .reg x, .reg y => .divRRR dst x y
  | .word x, .reg y => .divRWR dst x y
  | .reg x, .word y => .divRRW dst x y
  | .word x, .word y => .divRWW dst x y

/-- `MOD dst, x, y` in its four forms (R190). -/
def Instr.mod (dst : Reg) : Operand → Operand → Instr
  | .reg x, .reg y => .modRRR dst x y
  | .word x, .reg y => .modRWR dst x y
  | .reg x, .word y => .modRRW dst x y
  | .word x, .word y => .modRWW dst x y

/-- `CMP x, y` in its four forms (R200). -/
def Instr.cmp : Operand → Operand → Instr
  | .reg x, .reg y => .cmpRR x y
  | .word x, .reg y => .cmpWR x y
  | .reg x, .word y => .cmpRW x y
  | .word x, .word y => .cmpWW x y

/-- `MOV r, src` in its two forms (R180). -/
def Instr.mov (r : Reg) : Operand → Instr
  | .reg src => .movRR r src
  | .word src => .movRW r src

/-- The instruction the engine executes for a mnemonic and operands; `none` for a form the engine gives no meaning
(R105, R108 case (c)). -/
def Stmt.toInstr (t : Stmt) : Option Instr :=
  match t.mnemonic, t.operands with
  | .push, [.reg r] => some (.push r)
  | .pop, [.reg r] => some (.pop r)
  | .mov, [.reg r, src] => some (.mov r src)
  | .load, [.reg r, .word addr] => some (.load r addr)
  | .store, [.reg r, .word addr] => some (.store r addr)
  | .add, [.reg dst, x, y] => some (.add dst x y)
  | .sub, [.reg dst, x, y] => some (.sub dst x y)
  | .mul, [.reg dst, x, y] => some (.mul dst x y)
  | .div, [.reg dst, x, y] => some (.div dst x y)
  | .mod, [.reg dst, x, y] => some (.mod dst x y)
  | .jump, [.word addr] => some (.jump addr)
  | .jumpIfZero, [.word addr] => some (.jumpIfZero addr)
  | .jumpIfCarry, [.word addr] => some (.jumpIfCarry addr)
  | .cmp, [x, y] => some (.cmp x y)
  | .call, [.word addr] => some (.call addr)
  | .ret, [] => some .ret
  | .test, [.reg r] => some (.test r)
  | .nop, [] => some .nop
  | .halt, [] => some .halt
  | .syscall, [] => some .syscall
  | _, _ => none

end Sys2Proof
end

