-- ==== Sys2Proof/Config.lean ====
section
/-! DEFINITION. The implementation parameters of rule R5 and the free value of the model: what an unknown host
answers to a SYSCALL (rule R223). -/

namespace Sys2Proof

/-- The answer of the host's handler to one SYSCALL (R223). -/
inductive SyscallAnswer where
  /-- `Return(v)`: `acc` receives `v`. -/
  | value (v : Word)
  /-- `NoValue`: `acc` keeps its contents. -/
  | noValue
  /-- `Fail`: the SYSCALL raises `SyscallFault`. -/
  | fail
  deriving DecidableEq, Repr, Inhabited

/-- One row of a host's catalogue written out: the five values passed (R222) and the answer to them. -/
structure SyscallRow where
  acc : Word
  r0 : Word
  r1 : Word
  r2 : Word
  r3 : Word
  answer : SyscallAnswer
  deriving DecidableEq, Repr

/-- The parameter `SYSCALL_HANDLER` (R5, R223) as plain data. -/
inductive SyscallHandler where
  /-- No handler supplied: every SYSCALL answers `Fail` (R223). The default of R5. -/
  | absent
  /-- A host that is a function of the five values, given as the finite table of the arguments it serves; arguments in
  no row answer `Fail`. -/
  | catalogue (rows : List SyscallRow)
  /-- A host that is not known: its answers are the free value `Config.hostAnswer`. -/
  | unknown
  deriving DecidableEq, Repr

/-- The parameter `VALIDATION_MODE` (R5); it changes nothing that can be observed (R246). -/
inductive ValidationMode where
  | strict
  | fast
  deriving DecidableEq, Repr

/-- The implementation parameters of R5. -/
structure Params where
  /-- `MEM_SIZE`: the number of bytes in memory. -/
  memSize : Nat
  /-- `STACK_SLOTS`: the number of 32-bit values the stack holds. -/
  stackSlots : Nat
  /-- `CODE_BASE`: where the loader places the instruction bytes. -/
  codeBase : Nat
  /-- `VALIDATION_MODE`. -/
  validation : ValidationMode
  /-- `SYSCALL_HANDLER`. -/
  handler : SyscallHandler
  deriving DecidableEq, Repr

/-- The default column of R5's table. -/
def Params.default : Params :=
  { memSize := 65536, stackSlots := 256, codeBase := 0x100, validation := .strict, handler := .absent }

/-- FREE VALUE (log entry 3): what a host that is not known answers to its call number `call`, asked with `acc` and
`r0` to `r3`. The call number stands for "any state the host keeps for itself" (R223). It has no body: a statement
that mentions it holds whatever the host answers. -/
opaque Config.hostAnswer (call : Nat) (acc r0 r1 r2 r3 : Word) : SyscallAnswer

end Sys2Proof
end

