-- ==== Sys2Proof/Machine/Layout.lean ====
section
/-! DEFINITION. The memory layout computed from the parameters: the constants of rule R6 and the constraint that a
construction must meet (rules R5, R270). -/

namespace Sys2Proof

/-- `REG_BASE = 0` and `REG_END = 63`: Region A (R6). -/
def regBase : Nat := 0

/-- `REG_END` (R6). -/
def regEnd : Nat := 63

/-- `FLAG_BASE = 64` and `FLAG_END = 68`: Region B (R6). -/
def flagBase : Nat := 64

/-- `FLAG_END` (R6). -/
def flagEnd : Nat := 68

/-- `STACK_BASE = MEM_SIZE - 1`, the last byte of memory (R6, R33). -/
def Params.stackBase (p : Params) : Nat := p.memSize - 1

/-- `STACK_LIMIT = STACK_BASE - 4*STACK_SLOTS` (R6, R33). -/
def Params.stackLimit (p : Params) : Nat := p.stackBase - 4 * p.stackSlots

/-- The constraint of R5 on `CODE_BASE` for a program of `len` bytes. -/
def Params.codeBaseOk (p : Params) (len : Nat) : Bool :=
  decide (flagEnd < p.codeBase) && decide (p.codeBase + len ≤ p.stackLimit)

/-- The constraints of R5 that `Reset` requires (R270): `STACK_SLOTS >= 1` and
`70 + 4*STACK_SLOTS <= MEM_SIZE <= 2^32 - 1`. -/
def Params.valid (p : Params) : Bool :=
  decide (1 ≤ p.stackSlots) && decide (70 + 4 * p.stackSlots ≤ p.memSize) && decide (p.memSize ≤ 2 ^ 32 - 1)

end Sys2Proof
end

