-- ==== Sys2Proof/Machine/Bytes.lean ====
section
/-! DEFINITION. Byte order, decided once: little-endian packing and unpacking of rule R63. -/

namespace Sys2Proof

/-- `b[0] + 256*b[1] + ...`: the unsigned number a list of bytes stands for (R63). -/
def leValue : List Byte → Nat
  | [] => 0
  | b :: bs => b.toNat + 256 * leValue bs

/-- The low `n` bytes of a number, least significant first (R63). -/
def leBytes : Nat → Nat → List Byte
  | 0, _ => []
  | n + 1, v => BitVec.ofNat 8 v :: leBytes n (v / 256)

/-- The word a block of four bytes stands for (R107). -/
def leWord (bs : List Byte) : Word := BitVec.ofNat 32 (leValue bs)

/-- The four bytes of a word, least significant first (R63). -/
def wordBytes (w : Word) : List Byte := leBytes 4 w.toNat

end Sys2Proof
end

