-- ==== Sys2Proof/Machine/Memory.lean ====
section
/-! DEFINITION. Memory: a list of (address, byte) in one canonical form, addresses strictly rising and no byte 0x00.
An address not listed reads as 0x00, the reset contents the spec gives (rule R36). -/

namespace Sys2Proof.Machine

/-- The cells of memory that differ from reset. -/
abbrev Memory := List Host.Cell

/-- What an unlisted address reads as: memory is "zero-filled" at construction (R36, R270). -/
def unlistedByte : Byte := 0

/-- The byte at an address (R60). -/
def Memory.read : Memory → Nat → Byte
  | [], _ => unlistedByte
  | (k, v) :: m, a => if k = a then v else Memory.read m a

/-- The memory without any entry for an address. -/
def Memory.erase : Memory → Nat → Memory
  | [], _ => []
  | (k, v) :: m, a => if k = a then Memory.erase m a else (k, v) :: Memory.erase m a

/-- The memory with an entry put in its place by address. -/
def Memory.insert : Memory → Nat → Byte → Memory
  | [], a, b => [(a, b)]
  | (k, v) :: m, a, b => if a < k then (a, b) :: (k, v) :: m else (k, v) :: Memory.insert m a b

/-- One byte replaced (R62); writing the unlisted byte removes the entry, which keeps the form canonical. -/
def Memory.write (m : Memory) (a : Nat) (b : Byte) : Memory :=
  if b = unlistedByte then m.erase a else (m.erase a).insert a b

/-- `read_bytes` without its bounds check: `n` bytes in ascending address order (R61). -/
def Memory.readBytes (m : Memory) : Nat → Nat → List Byte
  | _, 0 => []
  | a, n + 1 => m.read a :: m.readBytes (a + 1) n

/-- `write_bytes` without its bounds check (R62). -/
def Memory.writeBytes (m : Memory) : Nat → List Byte → Memory
  | _, [] => m
  | a, b :: bs => Memory.writeBytes (m.write a b) (a + 1) bs

/-- The canonical form: addresses strictly rising, no entry equal to the unlisted byte. -/
def Memory.wf : Memory → Bool
  | [] => true
  | (a, b) :: m => b != unlistedByte && m.all (fun c => decide (a < c.1)) && Memory.wf m

end Sys2Proof.Machine
end

