-- ==== Sys2Proof/Machine/State.lean ====
section
/-! DEFINITION. The machine's state, plain data: memory (which holds the registers and the flags, rule R20), the engine
state (R29), the fault record (R30), the parameters (R5) and the model's own call counter. -/

namespace Sys2Proof.Machine

/-- The engine state (R29). -/
inductive EngineState where
  | ready
  | running
  | halted
  | faulted
  deriving DecidableEq, Repr

/-- The three reserved regions of memory, as a `RegionCollision` names them (R66, R241). -/
inductive Region where
  | registers
  | flags
  | stack
  deriving DecidableEq, Repr

/-- The eight faults of R241 with the information each records. -/
inductive FaultCause where
  | outOfBounds (addr len : Nat)
  | stackOverflow (sp : Word)
  | stackUnderflow (sp : Word)
  | regionCollision (region : Region) (addr : Word)
  | invalidName (code : Byte)
  | divisionByZero
  | illegalInstruction (opcode : Byte)
  | syscallFault (acc : Word)
  deriving DecidableEq, Repr

/-- The fault record once the engine is `Faulted` (R30, R241): the cause (which gives the code and the information) and
the address of the faulting instruction. -/
structure FaultRecord where
  cause : FaultCause
  pc : Word
  deriving DecidableEq, Repr

/-- The whole state. Registers and flags are bytes 0 to 68 of `mem` and have no storage of their own (R20). -/
structure State where
  /-- The parameters of R5, fixed for the life of an instance (log entry 1). -/
  params : Params
  /-- The memory of R20 (a) and R60. -/
  mem : Memory
  /-- The engine state of R29. -/
  engine : EngineState
  /-- The fault record of R30; `none` is the empty record. -/
  record : Option FaultRecord
  /-- The MODEL's own field: how many SYSCALLs an unknown host has answered (log entry 3). -/
  syscalls : Nat
  deriving DecidableEq, Repr

/-- Why a step can stop outside the machine's own faults (which are next states, log entry 4). -/
inductive Fault where
  /-- Raised by `step` alone, on a state whose parameters break the constraint of R270 ("a construction that violates it
  is refused"). No construction makes such a state. Safe: the machine it would describe does not exist. -/
  | notConstructible
  deriving DecidableEq, Repr

/-- Why an instruction can have no meaning. -/
inductive Refusal where
  /-- Raised by an arm of `exec` that has no meaning yet; no arm of this model raises it. Safe. -/
  | notModelled (mnemonic : String)
  deriving DecidableEq, Repr

/-- Memory after construction: zero-filled but for `sp`, which holds `STACK_BASE` in bytes 56 to 59 (R36, R270). -/
def resetMemory (p : Params) : Memory := Memory.writeBytes [] 56 (leBytes 4 p.stackBase)

/-- The state right after construction with given parameters (R36, R270). -/
def State.ofParams (p : Params) : State :=
  { params := p, mem := resetMemory p, engine := .ready, record := none, syscalls := 0 }

/-- The state after reset with the default parameters of R5. -/
def State.reset : State := State.ofParams Params.default

end Sys2Proof.Machine
end

