-- ==== Sys2Proof/Machine/Ops.lean ====
section
/-! DEFINITION. The named operations every instruction is written over: registers and flags as bytes of memory (rules
R64, R65), bounds-checked access (R61 to R63), the region check (R66), taking a fault (R250), the two ends of an
instruction (R113), and the stack's push and pop (R170). -/

namespace Sys2Proof.Machine

/-- What a handler gives: the state after it, or the fault it raises, with no state change (R112). -/
abbrev Result := Except FaultCause State

/-- The outcome type of a step. -/
abbrev StepOutcome := Host.Outcome State Fault Refusal

/-- The address of a register's four bytes (R22). -/
def regAddr (r : Reg) : Nat := 4 * r.code

/-- The address of a flag's byte (R27). -/
def flagAddr (f : Flag) : Nat := flagBase + f.code

/-- `x[r]` (R64): the register's four bytes, little-endian. It cannot be out of bounds. -/
def State.reg (s : State) (r : Reg) : Word := leWord (s.mem.readBytes (regAddr r) 4)

/-- `x[r] <- v` (R64), exempt from the region check. -/
def State.setReg (s : State) (r : Reg) (v : Word) : State :=
  { s with mem := s.mem.writeBytes (regAddr r) (wordBytes v) }

/-- `flag[f]` (R65): 1 when the byte is not zero. -/
def State.flag (s : State) (f : Flag) : Bool := s.mem.read (flagAddr f) != 0

/-- `flag[f] <- b` (R65): the byte 0x01 or 0x00. -/
def State.setFlag (s : State) (f : Flag) (b : Bool) : State :=
  { s with mem := s.mem.write (flagAddr f) (if b then 1 else 0) }

/-- The bounds check of R61, on unbounded integers. -/
def State.inBounds (s : State) (addr len : Nat) : Bool := decide (addr + len ≤ s.params.memSize)

/-- `MemRead(addr, 4)` (R63). -/
def State.memRead (s : State) (addr : Nat) : Except FaultCause Word :=
  if s.inBounds addr 4 then .ok (leWord (s.mem.readBytes addr 4)) else .error (.outOfBounds addr 4)

/-- `MemWrite(addr, 4, v)` (R62, R63): no region check of its own. -/
def State.memWrite (s : State) (addr : Nat) (v : Word) : Result :=
  if s.inBounds addr 4 then .ok { s with mem := s.mem.writeBytes addr (wordBytes v) }
  else .error (.outOfBounds addr 4)

/-- Whether the `n` bytes at `addr` meet the inclusive range `first .. last`: `lo <= last and hi >= first` of R66 with
`hi = addr + n - 1` over unbounded integers. -/
def overlaps (addr n first last : Nat) : Bool := decide (addr ≤ last) && decide (first + 1 ≤ addr + n)

/-- `WriteSafe` (R66): the first reserved region that the bytes overlap, tested in the order registers, flags, stack. -/
def collision (p : Params) (addr n : Nat) : Option Region :=
  if overlaps addr n regBase regEnd then some .registers
  else if overlaps addr n flagBase flagEnd then some .flags
  else if overlaps addr n p.stackLimit p.stackBase then some .stack
  else none

/-- The address of the byte after an instruction of a form that stands at `pc` (R112). -/
def State.cursor (s : State) (f : Form) : Word := s.reg .pc + BitVec.ofNat 32 (formLength f)

/-- TAKING A FAULT (R250): the engine becomes `Faulted`, the record holds the cause and the unchanged `pc`, and nothing
else changes. -/
def State.raise (s : State) (c : FaultCause) : State :=
  { s with engine := .faulted, record := some { cause := c, pc := s.reg .pc } }

/-- The end of a step whose handler set `pc` itself (R113): its state, or the fault it raised. -/
def State.conclude (s : State) : Result → StepOutcome
  | .ok t => .next t
  | .error c => .next (s.raise c)

/-- The end of a step whose handler did not set `pc`: `x[pc] <- cursor` after the handler (R113). -/
def State.advance (s : State) (f : Form) : Result → StepOutcome
  | .ok t => .next (t.setReg .pc (s.cursor f))
  | .error c => .next (s.raise c)

/-- The overflow-checked push shared by `PUSH` and `CALL` (R170, R171, R213): refused when `sp <= STACK_LIMIT`, else
the word goes to the new `sp`. -/
def State.pushWord (s : State) (v : Word) : Result :=
  if (s.reg .sp).toNat ≤ s.params.stackLimit then .error (.stackOverflow (s.reg .sp))
  else
    match s.memWrite (s.reg .sp - 4).toNat v with
    | .error c => .error c
    | .ok t => .ok (t.setReg .sp (s.reg .sp - 4))

/-- The underflow-checked read of the word at `sp` shared by `POP` and `RET` (R170, R172, R214): refused when
`sp >= STACK_BASE`. -/
def State.topWord (s : State) : Except FaultCause Word :=
  if s.params.stackBase ≤ (s.reg .sp).toNat then .error (.stackUnderflow (s.reg .sp))
  else s.memRead (s.reg .sp).toNat

/-- The code of a fault (R241). -/
def FaultCause.code : FaultCause → Nat
  | .outOfBounds _ _ => 1
  | .stackOverflow _ => 2
  | .stackUnderflow _ => 3
  | .regionCollision _ _ => 4
  | .invalidName _ => 5
  | .divisionByZero => 6
  | .illegalInstruction _ => 7
  | .syscallFault _ => 8

/-- Whether no further instruction is dispatched: `Halted` and `Faulted` are terminal (R29). -/
def EngineState.terminal : EngineState → Bool
  | .ready => false
  | .running => false
  | .halted => true
  | .faulted => true

end Sys2Proof.Machine
end

