-- ==== Sys2Proof/Machine/Operands.lean ====
section
/-! DEFINITION. Operand values: `val(k)` of rules R10 and R107. -/

namespace Sys2Proof.Machine

/-- The resolved value of an operand: the register's content, or the word as it stands (R107). -/
def State.val (s : State) : Operand → Word
  | .reg r => s.reg r
  | .word w => w

end Sys2Proof.Machine
end

