-- ==== Sys2Proof/Machine/Flags.lean ====
section
/-! DEFINITION. Flag computations: the five-flag function of rule R191, the two-flag write of rules R194 to R196 and
R201, and the carry, borrow and overflow of ADD, SUB and CMP. -/

namespace Sys2Proof.Machine

/-- The number of 1 bits of a byte (R9). -/
def popcount (b : Byte) : Nat := ((List.range 8).filter (fun k => b.getLsbD k)).length

/-- `PF`: the low byte of the result has an even number of 1 bits (R191). -/
def parityEven (w : Word) : Bool := popcount (w.extractLsb' 0 8) % 2 == 0

/-- Whether an integer lies in `-2^31 .. 2^31 - 1` (R192). -/
def fitsSigned (n : Int) : Bool := decide (-2147483648 ≤ n) && decide (n ≤ 2147483647)

/-- `CF` of ADD: the unsigned sum exceeds 32 bits (R192). -/
def addCarry (x y : Word) : Bool := decide (0xFFFFFFFF < x.toNat + y.toNat)

/-- `OVF` of ADD: the signed sum is outside the signed range (R192). -/
def addOverflow (x y : Word) : Bool := !fitsSigned (x.toInt + y.toInt)

/-- `CF` of SUB and CMP: unsigned borrow (R193, R200). -/
def subBorrow (x y : Word) : Bool := decide (x.toNat < y.toNat)

/-- `OVF` of SUB and CMP: the signed difference is outside the signed range (R193, R200). -/
def subOverflow (x y : Word) : Bool := !fitsSigned (x.toInt - y.toInt)

/-- `SetFlags5(R, c, v)` (R191). -/
def State.setFlags5 (s : State) (r : Word) (c v : Bool) : State :=
  ((((s.setFlag .zf (r == 0)).setFlag .cf c).setFlag .ovf v).setFlag .sf r.msb).setFlag .pf (parityEven r)

/-- The two flags MUL, DIV, MOD and TEST write; `CF`, `OVF` and `PF` keep their values (R194, R201). -/
def State.setFlagsZS (s : State) (r : Word) : State := (s.setFlag .zf (r == 0)).setFlag .sf r.msb

end Sys2Proof.Machine
end

