-- ==== Sys2Proof/Machine/Arithmetic.lean ====
section
/-! DEFINITION. ADD, SUB, MUL, DIV and MOD (rules R190 to R197): each computed once on its two resolved source values, read
before anything is written; the result goes to `dst`, then the flags. -/

namespace Sys2Proof.Machine

/-- `ADD` on resolved values (R192). -/
def State.addTo (s : State) (dst : Reg) (x y : Word) : Result :=
  .ok ((s.setReg dst (x + y)).setFlags5 (x + y) (addCarry x y) (addOverflow x y))

/-- `SUB` on resolved values (R193). -/
def State.subTo (s : State) (dst : Reg) (x y : Word) : Result :=
  .ok ((s.setReg dst (x - y)).setFlags5 (x - y) (subBorrow x y) (subOverflow x y))

/-- `MUL` on resolved values (R194): wrapped to 32 bits; only ZF and SF are written. -/
def State.mulTo (s : State) (dst : Reg) (x y : Word) : Result :=
  .ok ((s.setReg dst (x * y)).setFlagsZS (x * y))

/-- `DIV` on resolved values (R195): unsigned floor quotient; a zero divisor faults before anything is written. -/
def State.divTo (s : State) (dst : Reg) (x y : Word) : Result :=
  if y = 0 then .error .divisionByZero else .ok ((s.setReg dst (x / y)).setFlagsZS (x / y))

/-- `MOD` on resolved values (R196): unsigned remainder; a zero divisor faults before anything is written. -/
def State.modTo (s : State) (dst : Reg) (x y : Word) : Result :=
  if y = 0 then .error .divisionByZero else .ok ((s.setReg dst (x % y)).setFlagsZS (x % y))

/-- `ADD dst, x, y`, form RRR (R192). -/
def execAddRRR (dst x y : Reg) (s : State) : StepOutcome :=
  s.advance [.reg, .reg, .reg] (s.addTo dst (s.val (.reg x)) (s.val (.reg y)))

/-- `ADD dst, x, y`, form RWR (R192). -/
def execAddRWR (dst : Reg) (x : Word) (y : Reg) (s : State) : StepOutcome :=
  s.advance [.reg, .word, .reg] (s.addTo dst (s.val (.word x)) (s.val (.reg y)))

/-- `ADD dst, x, y`, form RRW (R192). -/
def execAddRRW (dst x : Reg) (y : Word) (s : State) : StepOutcome :=
  s.advance [.reg, .reg, .word] (s.addTo dst (s.val (.reg x)) (s.val (.word y)))

/-- `ADD dst, x, y`, form RWW (R192). -/
def execAddRWW (dst : Reg) (x y : Word) (s : State) : StepOutcome :=
  s.advance [.reg, .word, .word] (s.addTo dst (s.val (.word x)) (s.val (.word y)))

/-- `SUB dst, x, y`, form RRR (R193). -/
def execSubRRR (dst x y : Reg) (s : State) : StepOutcome :=
  s.advance [.reg, .reg, .reg] (s.subTo dst (s.val (.reg x)) (s.val (.reg y)))

/-- `SUB dst, x, y`, form RWR (R193). -/
def execSubRWR (dst : Reg) (x : Word) (y : Reg) (s : State) : StepOutcome :=
  s.advance [.reg, .word, .reg] (s.subTo dst (s.val (.word x)) (s.val (.reg y)))

/-- `SUB dst, x, y`, form RRW (R193). -/
def execSubRRW (dst x : Reg) (y : Word) (s : State) : StepOutcome :=
  s.advance [.reg, .reg, .word] (s.subTo dst (s.val (.reg x)) (s.val (.word y)))

/-- `SUB dst, x, y`, form RWW (R193). -/
def execSubRWW (dst : Reg) (x y : Word) (s : State) : StepOutcome :=
  s.advance [.reg, .word, .word] (s.subTo dst (s.val (.word x)) (s.val (.word y)))

/-- `MUL dst, x, y`, form RRR (R194). -/
def execMulRRR (dst x y : Reg) (s : State) : StepOutcome :=
  s.advance [.reg, .reg, .reg] (s.mulTo dst (s.val (.reg x)) (s.val (.reg y)))

/-- `MUL dst, x, y`, form RWR (R194). -/
def execMulRWR (dst : Reg) (x : Word) (y : Reg) (s : State) : StepOutcome :=
  s.advance [.reg, .word, .reg] (s.mulTo dst (s.val (.word x)) (s.val (.reg y)))

/-- `MUL dst, x, y`, form RRW (R194). -/
def execMulRRW (dst x : Reg) (y : Word) (s : State) : StepOutcome :=
  s.advance [.reg, .reg, .word] (s.mulTo dst (s.val (.reg x)) (s.val (.word y)))

/-- `MUL dst, x, y`, form RWW (R194). -/
def execMulRWW (dst : Reg) (x y : Word) (s : State) : StepOutcome :=
  s.advance [.reg, .word, .word] (s.mulTo dst (s.val (.word x)) (s.val (.word y)))

/-- `DIV dst, x, y`, form RRR (R195). -/
def execDivRRR (dst x y : Reg) (s : State) : StepOutcome :=
  s.advance [.reg, .reg, .reg] (s.divTo dst (s.val (.reg x)) (s.val (.reg y)))

/-- `DIV dst, x, y`, form RWR (R195). -/
def execDivRWR (dst : Reg) (x : Word) (y : Reg) (s : State) : StepOutcome :=
  s.advance [.reg, .word, .reg] (s.divTo dst (s.val (.word x)) (s.val (.reg y)))

/-- `DIV dst, x, y`, form RRW (R195). -/
def execDivRRW (dst x : Reg) (y : Word) (s : State) : StepOutcome :=
  s.advance [.reg, .reg, .word] (s.divTo dst (s.val (.reg x)) (s.val (.word y)))

/-- `DIV dst, x, y`, form RWW (R195). -/
def execDivRWW (dst : Reg) (x y : Word) (s : State) : StepOutcome :=
  s.advance [.reg, .word, .word] (s.divTo dst (s.val (.word x)) (s.val (.word y)))

/-- `MOD dst, x, y`, form RRR (R196). -/
def execModRRR (dst x y : Reg) (s : State) : StepOutcome :=
  s.advance [.reg, .reg, .reg] (s.modTo dst (s.val (.reg x)) (s.val (.reg y)))

/-- `MOD dst, x, y`, form RWR (R196). -/
def execModRWR (dst : Reg) (x : Word) (y : Reg) (s : State) : StepOutcome :=
  s.advance [.reg, .word, .reg] (s.modTo dst (s.val (.word x)) (s.val (.reg y)))

/-- `MOD dst, x, y`, form RRW (R196). -/
def execModRRW (dst x : Reg) (y : Word) (s : State) : StepOutcome :=
  s.advance [.reg, .reg, .word] (s.modTo dst (s.val (.reg x)) (s.val (.word y)))

/-- `MOD dst, x, y`, form RWW (R196). -/
def execModRWW (dst : Reg) (x y : Word) (s : State) : StepOutcome :=
  s.advance [.reg, .word, .word] (s.modTo dst (s.val (.word x)) (s.val (.word y)))

end Sys2Proof.Machine
end

