-- ==== Sys2Proof/Machine/CompareTest.lean ====
section
/-! DEFINITION. CMP and TEST (rules R200, R201): they write flags and nothing else. -/

namespace Sys2Proof.Machine

/-- `CMP` on resolved values (R200): the five flags of `x - y`, the difference discarded. -/
def State.compare (s : State) (x y : Word) : Result :=
  .ok (s.setFlags5 (x - y) (subBorrow x y) (subOverflow x y))

/-- `CMP x, y`, form RR (R200). -/
def execCmpRR (x y : Reg) (s : State) : StepOutcome :=
  s.advance [.reg, .reg] (s.compare (s.val (.reg x)) (s.val (.reg y)))

/-- `CMP x, y`, form WR (R200). -/
def execCmpWR (x : Word) (y : Reg) (s : State) : StepOutcome :=
  s.advance [.word, .reg] (s.compare (s.val (.word x)) (s.val (.reg y)))

/-- `CMP x, y`, form RW (R200). -/
def execCmpRW (x : Reg) (y : Word) (s : State) : StepOutcome :=
  s.advance [.reg, .word] (s.compare (s.val (.reg x)) (s.val (.word y)))

/-- `CMP x, y`, form WW (R200). -/
def execCmpWW (x y : Word) (s : State) : StepOutcome :=
  s.advance [.word, .word] (s.compare (s.val (.word x)) (s.val (.word y)))

/-- `TEST r` (R201): ZF and SF of the register's value. -/
def execTest (r : Reg) (s : State) : StepOutcome := s.advance [.reg] (.ok (s.setFlagsZS (s.reg r)))

end Sys2Proof.Machine
end

