-- ==== Sys2Proof/Machine/ControlFlow.lean ====
section
/-! DEFINITION. JUMP, JUMP_IF_ZERO, JUMP_IF_CARRY, CALL and RET (rules R210 to R215): the instructions that perform
`pc <- target` themselves (R113). -/

namespace Sys2Proof.Machine

/-- `pc <- target` (R113): no check of the target (R210). -/
def State.transfer (s : State) (target : Word) : State := s.setReg .pc target

/-- A conditional jump (R211, R212): the transfer when taken, the cursor otherwise. -/
def State.jumpIf (s : State) (taken : Bool) (addr : Word) : StepOutcome :=
  if taken then s.conclude (.ok (s.transfer addr)) else s.advance [.word] (.ok s)

/-- `JUMP addr` (R210). -/
def execJump (addr : Word) (s : State) : StepOutcome := s.conclude (.ok (s.transfer addr))

/-- `JUMP_IF_ZERO addr` (R211). -/
def execJumpIfZero (addr : Word) (s : State) : StepOutcome := s.jumpIf (s.flag .zf) addr

/-- `JUMP_IF_CARRY addr` (R212). -/
def execJumpIfCarry (addr : Word) (s : State) : StepOutcome := s.jumpIf (s.flag .cf) addr

/-- `CALL addr` (R213): the cursor is pushed, then the transfer. -/
def execCall (addr : Word) (s : State) : StepOutcome :=
  s.conclude
    (match s.pushWord (s.cursor [.word]) with
    | .error c => .error c
    | .ok t => .ok (t.transfer addr))

/-- `RET` (R214): the word at `sp` becomes `pc`, and `sp` rises by 4. -/
def execRet (s : State) : StepOutcome :=
  s.conclude
    (match s.topWord with
    | .error c => .error c
    | .ok v => .ok ((s.setReg .sp (s.reg .sp + 4)).transfer v))

end Sys2Proof.Machine
end

