-- ==== Sys2Proof/Machine/DataMovement.lean ====
section
/-! DEFINITION. MOV, LOAD and STORE (rules R180 to R183). -/

namespace Sys2Proof.Machine

/-- `MOV r, src` on a resolved operand (R180). -/
def State.move (s : State) (r : Reg) (src : Operand) : Result := .ok (s.setReg r (s.val src))

/-- `MOV r, src`, form RR (R180). -/
def execMovRR (r src : Reg) (s : State) : StepOutcome := s.advance [.reg, .reg] (s.move r (.reg src))

/-- `MOV r, src`, form RW (R180). -/
def execMovRW (r : Reg) (src : Word) (s : State) : StepOutcome := s.advance [.reg, .word] (s.move r (.word src))

/-- `LOAD r, addr` (R181): bounds check only, any region may be read. -/
def execLoad (r : Reg) (addr : Word) (s : State) : StepOutcome :=
  s.advance [.reg, .word]
    (match s.memRead addr.toNat with
    | .error c => .error c
    | .ok v => .ok (s.setReg r v))

/-- The store of R182: bounds first, then the region check, then the write. -/
def State.storeWord (s : State) (addr : Word) (v : Word) : Result :=
  if s.inBounds addr.toNat 4 then
    match collision s.params addr.toNat 4 with
    | some region => .error (.regionCollision region addr)
    | none => s.memWrite addr.toNat v
  else .error (.outOfBounds addr.toNat 4)

/-- `STORE r, addr` (R182). -/
def execStore (r : Reg) (addr : Word) (s : State) : StepOutcome :=
  s.advance [.reg, .word] (s.storeWord addr (s.reg r))

end Sys2Proof.Machine
end

