-- ==== Sys2Proof/Machine/Stack.lean ====
section
/-! DEFINITION. PUSH and POP (rules R170 to R172). -/

namespace Sys2Proof.Machine

/-- `PUSH r` (R171). The value is read after the decrement, so `PUSH sp` stores the new `sp`. -/
def execPush (r : Reg) (s : State) : StepOutcome :=
  s.advance [.reg] (s.pushWord (if r = .sp then s.reg .sp - 4 else s.reg r))

/-- `POP r` (R172). `sp` is read again after the write of `r`, so `POP sp` leaves the loaded word plus 4. -/
def execPop (r : Reg) (s : State) : StepOutcome :=
  s.advance [.reg]
    (match s.topWord with
    | .error c => .error c
    | .ok v => .ok ((s.setReg r v).setReg .sp ((s.setReg r v).reg .sp + 4)))

end Sys2Proof.Machine
end

