-- ==== Sys2Proof/Machine/System.lean ====
section
/-! DEFINITION. NOP, HALT and SYSCALL (rules R220 to R223). -/

namespace Sys2Proof.Machine

/-- The answer of a catalogue: the first row with these arguments; none serves them, `Fail` (R222: "the selector names
no operation"). -/
def lookupAnswer (acc r0 r1 r2 r3 : Word) : List SyscallRow → SyscallAnswer
  | [] => .fail
  | row :: rows =>
    if row.acc = acc ∧ row.r0 = r0 ∧ row.r1 = r1 ∧ row.r2 = r2 ∧ row.r3 = r3 then row.answer
    else lookupAnswer acc r0 r1 r2 r3 rows

/-- `SYSCALL_HANDLER(x[acc], x[r0], x[r1], x[r2], x[r3])` (R222, R223), the `call`-th call of this instance. -/
def handlerAnswer (h : SyscallHandler) (call : Nat) (acc r0 r1 r2 r3 : Word) : SyscallAnswer :=
  match h with
  | .absent => .fail
  | .catalogue rows => lookupAnswer acc r0 r1 r2 r3 rows
  | .unknown => Config.hostAnswer call acc r0 r1 r2 r3

/-- The host's answer to a SYSCALL made in this state (R222). -/
def State.hostAnswer (s : State) : SyscallAnswer :=
  handlerAnswer s.params.handler s.syscalls (s.reg .acc) (s.reg .r0) (s.reg .r1) (s.reg .r2) (s.reg .r3)

/-- `NOP` (R220). -/
def execNop (s : State) : StepOutcome := s.advance [] (.ok s)

/-- `HALT` (R221): the engine state becomes `Halted`; the step then writes the cursor to `pc`. -/
def execHalt (s : State) : StepOutcome := s.advance [] (.ok { s with engine := .halted })

/-- What a `SYSCALL` does with the answer it gets (R222). The call counter is the model's own (log entry 3). -/
def State.takeAnswer (s : State) : SyscallAnswer → Result
  | .fail => .error (.syscallFault (s.reg .acc))
  | .value v => .ok ({ s with syscalls := s.syscalls + 1 }.setReg .acc v)
  | .noValue => .ok { s with syscalls := s.syscalls + 1 }

/-- A `SYSCALL` that is given an answer, to its end (R222, R113). -/
def State.answered (s : State) (a : SyscallAnswer) : StepOutcome := s.advance [] (s.takeAnswer a)

/-- `SYSCALL` (R222). -/
def execSyscall (s : State) : StepOutcome := s.answered s.hostAnswer

end Sys2Proof.Machine
end

