-- ==== Sys2Proof/Machine/Dispatch.lean ====
section
/-! DEFINITION. The dispatch of rule R112: one arm per constructor of Instr, each one call of its meaning. -/

namespace Sys2Proof.Machine

def exec (i : Instr) (s : State) : Host.Outcome State Fault Refusal :=
  match i with
  | .push r => Sys2Proof.Machine.execPush r s
  | .pop r => Sys2Proof.Machine.execPop r s
  | .movRR r src => Sys2Proof.Machine.execMovRR r src s
  | .movRW r src => Sys2Proof.Machine.execMovRW r src s
  | .load r addr => Sys2Proof.Machine.execLoad r addr s
  | .store r addr => Sys2Proof.Machine.execStore r addr s
  | .addRRR dst x y => Sys2Proof.Machine.execAddRRR dst x y s
  | .addRWR dst x y => Sys2Proof.Machine.execAddRWR dst x y s
  | .addRRW dst x y => Sys2Proof.Machine.execAddRRW dst x y s
  | .addRWW dst x y => Sys2Proof.Machine.execAddRWW dst x y s
  | .subRRR dst x y => Sys2Proof.Machine.execSubRRR dst x y s
  | .subRWR dst x y => Sys2Proof.Machine.execSubRWR dst x y s
  | .subRRW dst x y => Sys2Proof.Machine.execSubRRW dst x y s
  | .subRWW dst x y => Sys2Proof.Machine.execSubRWW dst x y s
  | .mulRRR dst x y => Sys2Proof.Machine.execMulRRR dst x y s
  | .mulRWR dst x y => Sys2Proof.Machine.execMulRWR dst x y s
  | .mulRRW dst x y => Sys2Proof.Machine.execMulRRW dst x y s
  | .mulRWW dst x y => Sys2Proof.Machine.execMulRWW dst x y s
  | .divRRR dst x y => Sys2Proof.Machine.execDivRRR dst x y s
  | .divRWR dst x y => Sys2Proof.Machine.execDivRWR dst x y s
  | .divRRW dst x y => Sys2Proof.Machine.execDivRRW dst x y s
  | .divRWW dst x y => Sys2Proof.Machine.execDivRWW dst x y s
  | .modRRR dst x y => Sys2Proof.Machine.execModRRR dst x y s
  | .modRWR dst x y => Sys2Proof.Machine.execModRWR dst x y s
  | .modRRW dst x y => Sys2Proof.Machine.execModRRW dst x y s
  | .modRWW dst x y => Sys2Proof.Machine.execModRWW dst x y s
  | .jump addr => Sys2Proof.Machine.execJump addr s
  | .jumpIfZero addr => Sys2Proof.Machine.execJumpIfZero addr s
  | .jumpIfCarry addr => Sys2Proof.Machine.execJumpIfCarry addr s
  | .cmpRR x y => Sys2Proof.Machine.execCmpRR x y s
  | .cmpWR x y => Sys2Proof.Machine.execCmpWR x y s
  | .cmpRW x y => Sys2Proof.Machine.execCmpRW x y s
  | .cmpWW x y => Sys2Proof.Machine.execCmpWW x y s
  | .call addr => Sys2Proof.Machine.execCall addr s
  | .ret => Sys2Proof.Machine.execRet s
  | .test r => Sys2Proof.Machine.execTest r s
  | .nop => Sys2Proof.Machine.execNop s
  | .halt => Sys2Proof.Machine.execHalt s
  | .syscall => Sys2Proof.Machine.execSyscall s

end Sys2Proof.Machine
end

