-- ==== Sys2Proof/WellFormed.lean ====
section
/-! DEFINITION. Well-formedness of syntax. A `Stmt` (what the assembler can write) is checked for its operand count
(R129) and its form (R105). Every `Instr` is well-formed by its type: registers are names, not raw codes, and each
constructor is one legal form; `Instr.wellFormed` says so over the same two checks. -/

namespace Sys2Proof

/-- The number of operands is the mnemonic's arity (R104, R129). -/
def Stmt.arityOk (t : Stmt) : Bool := t.operands.length == t.mnemonic.arity

/-- The operand kinds are a form the engine gives a meaning (R105). -/
def Stmt.formOk (t : Stmt) : Bool := t.mnemonic.legalForms.contains t.form

/-- A statement the engine executes: right count and legal form. -/
def Stmt.wellFormed (t : Stmt) : Bool := t.arityOk && t.formOk

/-- The checks of `Stmt.wellFormed` on an instruction. -/
def Instr.wellFormed (i : Instr) : Bool := i.toStmt.wellFormed

end Sys2Proof
end

