-- ==== Sys2Proof/Decode.lean ====
section
/-! DEFINITION. The decoder of rules R101 to R112, total on any list of bytes and rejecting by name, and after it the
encoder (R100, R135) written from the same catalogue. -/

namespace Sys2Proof

/-- Why a byte list does not decode. Offsets count from the opcode byte. -/
inductive DecodeError where
  /-- The bytes end before the block of `len` bytes at `offset` (R112: `OutOfBounds` when fetched). -/
  | truncated (offset len : Nat)
  /-- The opcode byte is not one of the 39 legal values (R108, R109). -/
  | illegalInstruction (opcode : Byte)
  /-- A register block holds a byte above 15 (R106). -/
  | invalidName (code : Byte)
  deriving DecidableEq, Repr

/-- An operand block as fetched, its register code not yet checked (R102). -/
inductive Block where
  | reg (code : Byte)
  | word (w : Word)
  deriving DecidableEq, Repr

/-- The legality check of the step (R112): `OP` names a mnemonic, no kind bit beyond its arity, and the form is legal. -/
def decodeOpcode (b : Byte) : Option (Mnemonic × Form) :=
  match Mnemonic.ofOp (b.toNat % 32) with
  | none => none
  | some m =>
    if 2 ^ m.arity ≤ b.toNat / 32 then none
    else if m.legalForms.contains (formOfBits m.arity (b.toNat / 32)) then
      some (m, formOfBits m.arity (b.toNat / 32))
    else none

/-- The operand blocks of a form, operand 0 first, the first of them at `offset`, and the bytes after them (R112). -/
def readBlocks : Form → Nat → List Byte → Except DecodeError (List Block × List Byte)
  | [], _, bs => .ok ([], bs)
  | .reg :: _, offset, [] => .error (.truncated offset 1)
  | .reg :: f, offset, b :: bs =>
    match readBlocks f (offset + 1) bs with
    | .ok (blocks, rest) => .ok (.reg b :: blocks, rest)
    | .error e => .error e
  | .word :: f, offset, bs =>
    if bs.length < 4 then .error (.truncated offset 4)
    else
      match readBlocks f (offset + 4) (bs.drop 4) with
      | .ok (blocks, rest) => .ok (.word (leWord (bs.take 4)) :: blocks, rest)
      | .error e => .error e

/-- The check of the register codes, after every block is read, operand 0 first (R106, R112). -/
def nameBlocks : List Block → Except DecodeError (List Operand)
  | [] => .ok []
  | .reg b :: blocks =>
    match Reg.ofCode b.toNat with
    | none => .error (.invalidName b)
    | some r =>
      match nameBlocks blocks with
      | .ok ops => .ok (.reg r :: ops)
      | .error e => .error e
  | .word w :: blocks =>
    match nameBlocks blocks with
    | .ok ops => .ok (.word w :: ops)
    | .error e => .error e

/-- The decoder: the instruction at the head of a byte list and the bytes after it (R112). -/
def decode : List Byte → Except DecodeError (Instr × List Byte)
  | [] => .error (.truncated 0 1)
  | b :: bs =>
    match decodeOpcode b with
    | none => .error (.illegalInstruction b)
    | some (m, f) =>
      match readBlocks f 1 bs with
      | .error e => .error e
      | .ok (blocks, rest) =>
        match nameBlocks blocks with
        | .error e => .error e
        | .ok ops =>
          match (Stmt.mk m ops).toInstr with
          | none => .error (.illegalInstruction b)
          | some i => .ok (i, rest)

/-- The longest legal instruction in bytes (R70, R105). -/
def maxInstrLength : Nat := 10

/-- The decoder on a word numbered as spec/opcode_table.json numbers it: byte `k` of the stream is bits `8k+7 .. 8k`,
and every bit from `nbits` on is 0. -/
def decodeTableWord (nbits w : Nat) : Option Instr :=
  match decode (leBytes maxInstrLength (w % 2 ^ nbits)) with
  | .ok (i, _) => some i
  | .error _ => none

/-- The opcode byte `OP + 32*K` (R101, R135). -/
def opcodeByte (m : Mnemonic) (f : Form) : Byte := BitVec.ofNat 8 (m.op + 32 * kindBits f)

/-- The operand block of an operand (R102, R131 to R133). -/
def encodeOperand : Operand → List Byte
  | .reg r => [BitVec.ofNat 8 r.code]
  | .word w => wordBytes w

/-- The bytes of a statement: the opcode byte, then the blocks in source order (R100, R135). No legality check
(R136). -/
def Stmt.encode (t : Stmt) : List Byte := opcodeByte t.mnemonic t.form :: t.operands.flatMap encodeOperand

/-- The encoder: the bytes of an instruction (R100). -/
def encode (i : Instr) : List Byte := i.toStmt.encode

end Sys2Proof
end

