-- ==== Sys2Proof/Machine/Fetch.lean ====
section
/-! DEFINITION. Fetch and decode (rule R112): the bytes from `pc` to the end of memory, at most as many as the longest
instruction has, given to the decoder; its errors become the faults of R248 (1) to (4). -/

namespace Sys2Proof.Machine

/-- How many bytes fetch can read at `pc`: none past the end of memory (R114). -/
def State.fetchLength (s : State) : Nat := min maxInstrLength (s.params.memSize - (s.reg .pc).toNat)

/-- The bytes at `pc` in ascending address order (R69). There is no region restriction (R114). -/
def State.fetchBytes (s : State) : List Byte := s.mem.readBytes (s.reg .pc).toNat s.fetchLength

/-- The fault a decoding error raises at `pc` (R112). -/
def State.decodeFault (s : State) : DecodeError → FaultCause
  | .truncated offset len => .outOfBounds ((s.reg .pc).toNat + offset) len
  | .illegalInstruction b => .illegalInstruction b
  | .invalidName b => .invalidName b

/-- The instruction at `pc`, or the fault its fetch or decoding raises (R112). -/
def State.fetch (s : State) : Except FaultCause Instr :=
  match decode s.fetchBytes with
  | .ok (i, _) => .ok i
  | .error e => .error (s.decodeFault e)

/-- The engine at work: `Ready` becomes `Running` on the first request (R29, R112). -/
def State.start (s : State) : State := { s with engine := .running }

end Sys2Proof.Machine
end

