-- ==== Sys2Proof/Machine/Loader.lean ====
section
/-! DEFINITION. What the host does before a run (rule R256): constructing an instance (R270) and loading a program
(R272). -/

namespace Sys2Proof.Machine

/-- `Reset(MEM_SIZE, STACK_SLOTS)` (R270): the new instance, or nothing when the construction is refused. `CODE_BASE` is
not looked at here but by `State.load` (log entry 1). -/
def construct (p : Params) : Option State := if p.valid then some (State.ofParams p) else none

/-- Why a load is refused (R272): a host-side error, not an engine fault. -/
inductive LoadError where
  /-- The engine state is not `Ready`. -/
  | notReady
  /-- The image does not end inside memory. -/
  | outOfMemory
  /-- `WriteSafe` on the image's bytes raises this region. -/
  | regionCollision (region : Region)
  /-- `CODE_BASE` breaks R5 although the tests of R272 pass, which only an empty image can bring about (log entry 15). -/
  | codeBase
  deriving DecidableEq, Repr

/-- The image written at `CODE_BASE` and `pc` set to it, with no check. -/
def State.placeImage (s : State) (image : List Byte) : State :=
  { s with mem := s.mem.writeBytes s.params.codeBase image }.setReg .pc (BitVec.ofNat 32 s.params.codeBase)

/-- `Load(image, CODE_BASE)`: the three requirements of R272 in their order, then the write and `pc`. After them the
constraint of R5 on `CODE_BASE` is tested, outside which U11 refuses a load. It refuses more than R272's procedure only for
an empty image at `CODE_BASE` 0, 64 or `MEM_SIZE`, which R272 accepts: that the model follows R5 and U11 there is its own
choice (log entry 15). -/
def State.load (s : State) (image : List Byte) : Except LoadError State :=
  if s.engine = .ready then
    if s.inBounds s.params.codeBase image.length then
      match collision s.params s.params.codeBase image.length with
      | some region => .error (.regionCollision region)
      | none => if s.params.codeBaseOk image.length then .ok (s.placeImage image) else .error .codeBase
    else .error .outOfMemory
  else .error .notReady

/-- The same instance made able to fetch: a terminal engine is `Ready` again with an empty record. Used only to place a
word for fetch, never by a step. -/
def State.makeReady (s : State) : State :=
  if s.engine.terminal then { s with engine := .ready, record := none } else s

/-- A table word stored where the next step fetches (log entry 7): its bytes, zero-extended to the longest instruction,
placed as `Load` places an image. -/
def State.placeWord (s : State) (nbits w : Nat) : State :=
  s.makeReady.placeImage (leBytes maxInstrLength (w % 2 ^ nbits))

end Sys2Proof.Machine
end

