-- ==== Sys2Proof/Machine/Step.lean ====
section
/-! DEFINITION. One step of the engine (rule R112). -/

namespace Sys2Proof.Machine

/-- `Step()` (R112): nothing in a terminal state (R252), else fetch, decode and execute; every fault is a next state
(R250). A state that no construction makes is stopped (R270). -/
def step (s : State) : Host.Outcome State Fault Refusal :=
  if s.params.valid then
    if s.engine.terminal then .next s
    else
      match s.start.fetch with
      | .error c => .next (s.start.raise c)
      | .ok i => exec i s.start
  else .fault .notConstructible

/-- `s` with the table word `w` of `nbits` bits where the next step fetches: the host's `Load` at `CODE_BASE` (R272). -/
def State.withFetchWord (s : State) (nbits w : Nat) : State := s.placeWord nbits w

end Sys2Proof.Machine
end

