-- ==== Sys2Proof/Machine/Assembler.lean ====
section
/-! DEFINITION. The assembler (rules R120 to R139): a pure function from source lines and the load address to bytes, or
to one assembly-time error. Text is a list of characters. -/

namespace Sys2Proof

/-- A piece of source text. -/
abbrev Text := List Char

/-- A source line with its 1-based number in the input as given, its text stripped (R122, R137). -/
structure SourceLine where
  number : Nat
  text : Text
  deriving DecidableEq, Repr

/-- The assembly-time errors (R137), each but the first with the line number and the stripped line. -/
inductive AsmError where
  /-- No `.text` marker (R123). -/
  | missingSection
  /-- The uppercased mnemonic token is not in the catalogue (R127). -/
  | unknownOpcode (mnemonic : Text) (line : Nat) (text : Text)
  /-- A count mismatch or an empty operand, with all the operand texts (R129); or one offending operand (R134). -/
  | illegalOperand (operands : List Text) (line : Nat) (text : Text)
  /-- An operand of the shape `r` and a digit that is no register name (R130). -/
  | illegalRegister (operand : Text) (line : Nat) (text : Text)
  deriving DecidableEq, Repr

/-- Whitespace: space, tab, carriage return, line feed (R121). -/
def isSpace (c : Char) : Bool := c == ' ' || c == '\t' || c == '\r' || c == '\n'

/-- A text without its leading and trailing whitespace (R122). -/
def strip (t : Text) : Text := ((t.dropWhile isSpace).reverse.dropWhile isSpace).reverse

/-- The whitespace-separated tokens of a text after the characters of a token begun, last first (R127). -/
def tokensFrom : Text → Text → List Text
  | [], cur => if cur.isEmpty then [] else [cur.reverse]
  | c :: cs, cur =>
    if isSpace c then
      if cur.isEmpty then tokensFrom cs [] else cur.reverse :: tokensFrom cs []
    else tokensFrom cs (c :: cur)

/-- The whitespace-separated tokens of a text (R127). -/
def tokens (t : Text) : List Text := tokensFrom t []

/-- The pieces between commas, empty ones kept (R128). -/
def splitCommas : Text → List Text
  | [] => [[]]
  | c :: cs =>
    if c = ',' then [] :: splitCommas cs
    else
      match splitCommas cs with
      | [] => [[c]]
      | p :: ps => (c :: p) :: ps

/-- The lines numbered from a number, each stripped (R122). -/
def numberLines : Nat → List Text → List SourceLine
  | _, [] => []
  | n, t :: ts => { number := n, text := strip t } :: numberLines (n + 1) ts

/-- A line is kept unless it is blank or a full-line comment (R122). -/
def SourceLine.kept (l : SourceLine) : Bool := !l.text.isEmpty && l.text.head? != some ';'

/-- Pass 1, first part: number, strip, drop blank and comment lines (R122). -/
def normalise (lines : List Text) : List SourceLine := (numberLines 1 lines).filter SourceLine.kept

/-- The line's first token is exactly `.text` (R123). -/
def SourceLine.isTextMarker (l : SourceLine) : Bool := (tokens l.text).head? == some ".text".toList

/-- The line begins with a section marker other than `.text` (R123). -/
def SourceLine.isOtherMarker (l : SourceLine) : Bool := l.text.head? == some '.' && !l.isTextMarker

/-- The body (R123): the kept lines after the first `.text` marker, up to another section marker, repeated `.text` lines
skipped; nothing when there is no marker. -/
def findBody (ls : List SourceLine) : Option (List SourceLine) :=
  match ls.dropWhile (fun l => !l.isTextMarker) with
  | [] => none
  | _ :: rest => some ((rest.takeWhile (fun l => !l.isOtherMarker)).filter (fun l => !l.isTextMarker))

/-- A letter or `_`, ASCII (R121). -/
def isIdentStart (c : Char) : Bool := c.isAlpha || c == '_'

/-- An identifier: a letter or `_`, then letters, digits or `_`, ASCII (R121). -/
def isIdentifier : Text → Bool
  | [] => false
  | c :: cs => isIdentStart c && cs.all (fun d => isIdentStart d || d.isDigit)

/-- The name a label line defines: the whole line is an identifier immediately followed by `:` (R124). -/
def SourceLine.labelName (l : SourceLine) : Option Text :=
  match l.text.reverse with
  | ':' :: name => if isIdentifier name.reverse then some name.reverse else none
  | _ => none

/-- The registers in the order of their codes. -/
def allRegs : List Reg := [.r0, .r1, .r2, .r3, .r4, .r5, .r6, .r7, .r8, .r9, .r10, .r11, .r12, .pc, .sp, .acc]

/-- The register's name in assembly text, lower case (R130). -/
def Reg.name : Reg → Text
  | .r0 => "r0".toList | .r1 => "r1".toList | .r2 => "r2".toList | .r3 => "r3".toList
  | .r4 => "r4".toList | .r5 => "r5".toList | .r6 => "r6".toList | .r7 => "r7".toList
  | .r8 => "r8".toList | .r9 => "r9".toList | .r10 => "r10".toList | .r11 => "r11".toList
  | .r12 => "r12".toList | .pc => "pc".toList | .sp => "sp".toList | .acc => "acc".toList

/-- The register a text names exactly (R130). -/
def Reg.ofName (t : Text) : Option Reg := allRegs.find? (fun r => r.name == t)

/-- The mnemonics in the order of their operation numbers. -/
def allMnemonics : List Mnemonic :=
  [.push, .pop, .mov, .load, .store, .add, .sub, .mul, .div, .mod, .jump, .jumpIfZero, .jumpIfCarry, .cmp, .call,
    .ret, .test, .nop, .halt, .syscall]

/-- The mnemonic's spelling in the catalogue (R104). -/
def Mnemonic.name : Mnemonic → Text
  | .push => "PUSH".toList | .pop => "POP".toList | .mov => "MOV".toList | .load => "LOAD".toList
  | .store => "STORE".toList | .add => "ADD".toList | .sub => "SUB".toList | .mul => "MUL".toList
  | .div => "DIV".toList | .mod => "MOD".toList | .jump => "JUMP".toList
  | .jumpIfZero => "JUMP_IF_ZERO".toList | .jumpIfCarry => "JUMP_IF_CARRY".toList
  | .cmp => "CMP".toList | .call => "CALL".toList | .ret => "RET".toList | .test => "TEST".toList
  | .nop => "NOP".toList | .halt => "HALT".toList | .syscall => "SYSCALL".toList

/-- The mnemonic an uppercased token names (R127). -/
def Mnemonic.ofName (t : Text) : Option Mnemonic := allMnemonics.find? (fun m => m.name == t)

/-- The token uppercased, ASCII letters only (R127; log entry 9). -/
def upcase (t : Text) : Text := t.map Char.toUpper

/-- The operand texts of an instruction line: the tokens after the first rejoined without whitespace, then split at
commas (R128). -/
def SourceLine.operandTexts (l : SourceLine) : List Text :=
  let joined := (tokens l.text).tail.flatten
  if joined.isEmpty then [] else splitCommas joined

/-- The size of the block of an operand text (R125). -/
def operandSize (t : Text) : Nat := if (Reg.ofName t).isSome then 1 else 4

/-- `size(line)` (R125). -/
def SourceLine.size (l : SourceLine) : Nat := 1 + (l.operandTexts.map operandSize).sum

/-- The label definitions of a body in order, each with its address, the first line standing at `addr` (R125). -/
def labelTable : Nat → List SourceLine → List (Text × Nat)
  | _, [] => []
  | addr, l :: ls =>
    match l.labelName with
    | some name => (name, addr) :: labelTable addr ls
    | none => labelTable (addr + l.size) ls

/-- The address of a label: that of its last definition (R126). -/
def resolveLabel (table : List (Text × Nat)) (name : Text) : Option Nat := table.reverse.lookup name

/-- The value of a digit in bases up to 16, either case (R132). -/
def digitValue (c : Char) : Option Nat :=
  if c.isDigit then some (c.toNat - '0'.toNat)
  else if 'a' ≤ c ∧ c ≤ 'f' then some (c.toNat - 'a'.toNat + 10)
  else if 'A' ≤ c ∧ c ≤ 'F' then some (c.toNat - 'A'.toNat + 10)
  else none

/-- The number that digits of a base stand for after a number read so far. -/
def digitsFrom (base : Nat) : Nat → Text → Option Nat
  | n, [] => some n
  | n, c :: cs =>
    match digitValue c with
    | some d => if d < base then digitsFrom base (base * n + d) cs else none
    | none => none

/-- One or more digits of a base (R132). -/
def parseDigits (base : Nat) (t : Text) : Option Nat := if t.isEmpty then none else digitsFrom base 0 t

/-- Decimal digits, or digits after one of the prefixes `0x`, `0o`, `0b` in either case (R132). -/
def parseMagnitude : Text → Option Nat
  | '0' :: 'x' :: t => parseDigits 16 t
  | '0' :: 'X' :: t => parseDigits 16 t
  | '0' :: 'o' :: t => parseDigits 8 t
  | '0' :: 'O' :: t => parseDigits 8 t
  | '0' :: 'b' :: t => parseDigits 2 t
  | '0' :: 'B' :: t => parseDigits 2 t
  | t => parseDigits 10 t

/-- An integer literal: an optional sign and a magnitude (R132). -/
def parseInteger : Text → Option Int
  | '+' :: t => (parseMagnitude t).map Int.ofNat
  | '-' :: t => (parseMagnitude t).map (fun n => -Int.ofNat n)
  | t => (parseMagnitude t).map Int.ofNat

/-- The word an immediate stands for: its value must lie in `-2^31 .. 2^32 - 1` and is taken mod `2^32` (R132). -/
def parseImmediate (t : Text) : Option Word :=
  match parseInteger t with
  | some v => if -2147483648 ≤ v ∧ v ≤ 4294967295 then some (BitVec.ofInt 32 v) else none
  | none => none

/-- A text of the shape `r` and a decimal digit (R130 test 3). -/
def hasRegisterShape : Text → Bool
  | 'r' :: d :: _ => d.isDigit
  | _ => false

/-- The classification of an operand text, its five tests in order (R130 to R134). -/
def parseOperand (table : List (Text × Nat)) (l : SourceLine) (t : Text) : Except AsmError Operand :=
  match t with
  | '#' :: digits =>
    match parseImmediate digits with
    | some w => .ok (.word w)
    | none => .error (.illegalOperand [t] l.number l.text)
  | _ =>
    match Reg.ofName t with
    | some r => .ok (.reg r)
    | none =>
      if hasRegisterShape t then .error (.illegalRegister t l.number l.text)
      else
        match resolveLabel table t with
        | some addr => .ok (.word (BitVec.ofNat 32 addr))
        | none => .error (.illegalOperand [t] l.number l.text)

/-- The operands of a line, left to right, the first failing one reported (R137). -/
def parseOperands (table : List (Text × Nat)) (l : SourceLine) : List Text → Except AsmError (List Operand)
  | [] => .ok []
  | t :: ts =>
    match parseOperand table l t with
    | .error e => .error e
    | .ok o =>
      match parseOperands table l ts with
      | .error e => .error e
      | .ok os => .ok (o :: os)

/-- An instruction line as a statement: mnemonic (R127), operand count (R129), operands (R130). Operand kinds are not
checked (R136). -/
def parseLine (table : List (Text × Nat)) (l : SourceLine) : Except AsmError Stmt :=
  let token := upcase ((tokens l.text).headD [])
  match Mnemonic.ofName token with
  | none => .error (.unknownOpcode token l.number l.text)
  | some m =>
    let texts := l.operandTexts
    if texts.length = m.arity ∧ ¬ texts.contains [] then
      match parseOperands table l texts with
      | .error e => .error e
      | .ok ops => .ok { mnemonic := m, operands := ops }
    else .error (.illegalOperand texts l.number l.text)

/-- Pass 2: the bytes of the body's instruction lines in order, the first failing line reported (R135, R137). -/
def encodeBody (table : List (Text × Nat)) : List SourceLine → Except AsmError (List Byte)
  | [] => .ok []
  | l :: ls =>
    match l.labelName with
    | some _ => encodeBody table ls
    | none =>
      match parseLine table l with
      | .error e => .error e
      | .ok stmt =>
        match encodeBody table ls with
        | .error e => .error e
        | .ok bytes => .ok (stmt.encode ++ bytes)

/-- `assemble(lines, origin)` (R120): the bytes of the program, or one error and no bytes. -/
def assemble (lines : List Text) (origin : Nat) : Except AsmError (List Byte) :=
  match findBody (normalise lines) with
  | none => .error .missingSection
  | some body => encodeBody (labelTable origin body) body

end Sys2Proof
end

