-- ==== Sys2Proof/Safety.lean ====
section
/-! DEFINITION. The terms claims are stated in: what may change (frames), what a taken fault looks like, flag contents by
arithmetic alone, the invariants, and repeated execution. Nothing here is used by the machine. -/

namespace Sys2Proof.Machine

/-- The byte a state reads at an address. -/
def State.byte (s : State) (a : Nat) : Byte := s.mem.read a

/-- The unsigned number of the four bytes at an address, least significant first, as R63 writes it. -/
def State.wordAt (s : State) (a : Nat) : Nat :=
  (s.byte a).toNat + 256 * (s.byte (a + 1)).toNat + 65536 * (s.byte (a + 2)).toNat +
    16777216 * (s.byte (a + 3)).toNat

/-- The address is one of a register's four bytes (R22). -/
def InReg (r : Reg) (a : Nat) : Prop := 4 * r.code ≤ a ∧ a < 4 * r.code + 4

/-- The address is in Region B (R27). -/
def InFlags (a : Nat) : Prop := 64 ≤ a ∧ a ≤ 68

/-- The address is one of the four bytes at `n`. -/
def InWord (n a : Nat) : Prop := n ≤ a ∧ a < n + 4

/-- Every byte of memory reads as before but at the addresses named. Registers and flags are bytes 0 to 68, so this
covers them too. -/
def SameBytesBut (s t : State) (changed : Nat → Prop) : Prop := ∀ a, ¬ changed a → t.byte a = s.byte a

/-- Everything outside memory is as before: parameters, engine state, fault record, the model's call counter. -/
def SameControl (s t : State) : Prop :=
  t.params = s.params ∧ t.engine = s.engine ∧ t.record = s.record ∧ t.syscalls = s.syscalls

/-- The outcome is the entry of fault `c` taken from `s` (R250): `Faulted`, the record filled with the cause and the
unchanged `pc`, and nothing else changed. -/
def FaultsWith (s : State) (c : FaultCause) (o : StepOutcome) : Prop :=
  ∃ t, o = .next t ∧ t.engine = .faulted ∧ t.record = some { cause := c, pc := s.reg .pc } ∧
    t.mem = s.mem ∧ t.params = s.params ∧ t.syscalls = s.syscalls

/-- `pc` stands just after an instruction that began at the old `pc` (R113). -/
def PcAfter (s t : State) (i : Instr) : Prop := t.reg .pc = s.reg .pc + BitVec.ofNat 32 (encode i).length

/-- The five flags are those of result `R` with carry `c` and overflow `v` (R191), by arithmetic on numbers. -/
def HasFlags5 (t : State) (R : Nat) (c v : Prop) : Prop :=
  (t.flag .zf = true ↔ R = 0) ∧ (t.flag .cf = true ↔ c) ∧ (t.flag .ovf = true ↔ v) ∧
    (t.flag .sf = true ↔ 2 ^ 31 ≤ R) ∧
    (t.flag .pf = true ↔ ((List.range 8).filter (fun k => R.testBit k)).length % 2 = 0)

/-- `ZF` and `SF` are those of result `R`; `CF`, `OVF` and `PF` are as before (R194, R201). -/
def HasFlagsZS (s t : State) (R : Nat) : Prop :=
  (t.flag .zf = true ↔ R = 0) ∧ (t.flag .sf = true ↔ 2 ^ 31 ≤ R) ∧
    t.flag .cf = s.flag .cf ∧ t.flag .ovf = s.flag .ovf ∧ t.flag .pf = s.flag .pf

/-- The address is the byte of `ZF` or of `SF` (R27). -/
def InZeroOrSign (a : Nat) : Prop := a = 64 ∨ a = 67

/-- An integer outside the signed 32-bit range (R192). -/
def OutOfSigned (n : Int) : Prop := n < -2 ^ 31 ∨ 2 ^ 31 ≤ n

/-- The state is one a construction and a run can give: legal parameters (R270), memory in canonical form and inside
`MEM_SIZE` (R60), and the fault record empty in every engine state but `Faulted` (R30). -/
def State.Inv (s : State) : Prop :=
  s.params.valid = true ∧ s.mem.wf = true ∧ (∀ e ∈ s.mem, e.1 < s.params.memSize) ∧
    (s.record.isSome = true ↔ s.engine = .faulted)

/-- Every flag byte is 0 or 1 (R27). -/
def FlagBytesBoolean (s : State) : Prop := ∀ f : Flag, s.byte (flagAddr f) = 0 ∨ s.byte (flagAddr f) = 1

/-- `sp` is one of `STACK_BASE - 4k` inside the stack region (R25). -/
def StackPointerOk (s : State) : Prop :=
  ∃ k, k ≤ s.params.stackSlots ∧ (s.reg .sp).toNat + 4 * k = s.params.stackBase

/-- The register an instruction names as its destination; PUSH, CALL and RET change `sp` without naming it. -/
def destination : Instr → Option Reg
  | .push _ => none
  | .pop r => some r
  | .movRR r _ => some r
  | .movRW r _ => some r
  | .load r _ => some r
  | .store _ _ => none
  | .addRRR dst _ _ => some dst
  | .addRWR dst _ _ => some dst
  | .addRRW dst _ _ => some dst
  | .addRWW dst _ _ => some dst
  | .subRRR dst _ _ => some dst
  | .subRWR dst _ _ => some dst
  | .subRRW dst _ _ => some dst
  | .subRWW dst _ _ => some dst
  | .mulRRR dst _ _ => some dst
  | .mulRWR dst _ _ => some dst
  | .mulRRW dst _ _ => some dst
  | .mulRWW dst _ _ => some dst
  | .divRRR dst _ _ => some dst
  | .divRWR dst _ _ => some dst
  | .divRRW dst _ _ => some dst
  | .divRWW dst _ _ => some dst
  | .modRRR dst _ _ => some dst
  | .modRWR dst _ _ => some dst
  | .modRRW dst _ _ => some dst
  | .modRWW dst _ _ => some dst
  | .jump _ => none
  | .jumpIfZero _ => none
  | .jumpIfCarry _ => none
  | .cmpRR _ _ => none
  | .cmpWR _ _ => none
  | .cmpRW _ _ => none
  | .cmpWW _ _ => none
  | .call _ => none
  | .ret => none
  | .test _ => none
  | .nop => none
  | .halt => none
  | .syscall => some .acc

/-- The mnemonic of an instruction. -/
def mnemonicOf (i : Instr) : Mnemonic := i.toStmt.mnemonic

/-- The mnemonics that write flags (the "written by" column of R27). -/
def writesFlags (i : Instr) : Prop := mnemonicOf i ∈ [Mnemonic.add, .sub, .mul, .div, .mod, .cmp, .test]

/-- The mnemonics that write the stack region (R34). -/
def pushes (i : Instr) : Prop := mnemonicOf i ∈ [Mnemonic.push, .call]

/-- The mnemonics whose handler can set `pc` (R113). -/
def transfersControl (i : Instr) : Prop :=
  mnemonicOf i ∈ [Mnemonic.jump, .jumpIfZero, .jumpIfCarry, .call, .ret]

/-- What R222 says a SYSCALL in `s` does with an answer: `Return(v)` puts `v` into `acc`, `NoValue` leaves it, `Fail` is the
fault `SyscallFault`. Nothing else changes but `pc` and the model's call counter (log entry 3). -/
def FollowsAnswer (s : State) (a : SyscallAnswer) (o : StepOutcome) : Prop :=
  match a with
  | .value v => ∃ t, o = .next t ∧ t.reg .acc = v ∧ PcAfter s t .syscall ∧ t.params = s.params ∧ t.engine = s.engine ∧
      t.record = s.record ∧ t.syscalls = s.syscalls + 1 ∧ SameBytesBut s t (fun b => InReg .acc b ∨ InReg .pc b)
  | .noValue => ∃ t, o = .next t ∧ PcAfter s t .syscall ∧ t.params = s.params ∧ t.engine = s.engine ∧
      t.record = s.record ∧ t.syscalls = s.syscalls + 1 ∧ SameBytesBut s t (InReg .pc)
  | .fail => FaultsWith s (.syscallFault (s.reg .acc)) o

/-- A row of a host's catalogue is for these five words (R222). -/
def Serves (row : SyscallRow) (acc r0 r1 r2 r3 : Word) : Prop :=
  row.acc = acc ∧ row.r0 = r0 ∧ row.r1 = r1 ∧ row.r2 = r2 ∧ row.r3 = r3

/-- An instruction executed `n` times over, with no fetch between. -/
def execTimes (i : Instr) : Nat → State → Option State
  | 0, s => some s
  | n + 1, s =>
    match exec i s with
    | .next t => execTimes i n t
    | .fault _ => none
    | .refused _ => none

/-- The engine is not terminal, so that a step dispatches (R29). -/
def Dispatching (s : State) : Prop := s.params.valid = true ∧ (s.engine = .ready ∨ s.engine = .running)

/-- A run of `k` steps that ends without a fault: what a claim that a program is safe is about (R240, R274). -/
def SafeRun (k : Nat) (s : State) : Prop :=
  ∃ t, Host.Core.run Sys2Proof.core k s = .next t ∧ t.engine ≠ .faulted

/-- The total size of the instruction lines among source lines (R125). -/
def instructionBytes (ls : List SourceLine) : Nat :=
  ((ls.filter (fun l => l.labelName.isNone)).map SourceLine.size).sum

/-- The 39 legal opcode bytes (R105). -/
def legalOpcodes : List Byte :=
  [0x01, 0x02, 0x03, 0x43, 0x44, 0x45, 0x06, 0x46, 0x86, 0xC6, 0x07, 0x47, 0x87, 0xC7, 0x08, 0x48, 0x88, 0xC8, 0x09,
    0x49, 0x89, 0xC9, 0x0A, 0x4A, 0x8A, 0xCA, 0x2B, 0x2C, 0x2D, 0x0E, 0x2E, 0x4E, 0x6E, 0x2F, 0x10, 0x11, 0x12, 0x13,
    0x14]

end Sys2Proof.Machine
end

