-- ==== Sys2Proof/Certificates/Slice0/Obligations.lean ====
section
/-! DEFINITION. The statements for the provers. Each docstring names the rule of spec/ it formalises. -/

open Sys2Proof Sys2Proof.Machine

/-! ## Reset, memory and the invariant -/

/-- R36, R270: a construction with legal parameters gives the stated reset values: memory zero-filled, `sp` at
`STACK_BASE`, every other register and every flag zero, the engine `Ready`, the fault record empty. -/
def Obligations.ConstructionGivesResetValues : Prop :=
  ∀ p : Params, 1 ≤ p.stackSlots → 70 + 4 * p.stackSlots ≤ p.memSize → p.memSize ≤ 2 ^ 32 - 1 →
    ∃ s, construct p = some s ∧ s.params = p ∧ s.engine = .ready ∧ s.record = none ∧
      (∀ r : Reg, (s.reg r).toNat = if r = .sp then p.memSize - 1 else 0) ∧ (∀ f : Flag, s.flag f = false) ∧
      (∀ a, a < 56 ∨ 60 ≤ a → s.byte a = 0)

/-- R5, R270, U11: a construction is refused exactly when its `MEM_SIZE` and `STACK_SLOTS` break the constraints of R5.
That `STACK_SLOTS >= 1`, which R270's procedure does not repeat, is among them, and that any `CODE_BASE` is accepted here
and tested by the load alone, are the model's choices (log entry 1). -/
def Obligations.ConstructionOutsideConstraintsIsRefused : Prop :=
  ∀ p : Params, construct p = none ↔
    ¬ (1 ≤ p.stackSlots ∧ 70 + 4 * p.stackSlots ≤ p.memSize ∧ p.memSize ≤ 2 ^ 32 - 1)

/-- The state after reset, and every constructed state, meets the invariant of `EveryStepKeepsInvariant`. The clause that
memory is in canonical form is the model's choice (log entry 5), and that `State.reset` has the default parameters of R5
is too (log entry 1). -/
def Obligations.ConstructedStatesMeetInvariant : Prop :=
  State.reset.Inv ∧ ∀ (p : Params) (s : State), construct p = some s → s.Inv

/-- Every step from a state that meets the invariant gives a state that meets it: the parameters stay legal, memory
stays canonical and inside `MEM_SIZE`, and the fault record is filled exactly when the engine is `Faulted` (R30, R60).
The canonical form is the model's choice (log entry 5). -/
def Obligations.EveryStepKeepsInvariant : Prop :=
  ∀ s t : State, s.Inv → step s = .next t → t.Inv

/-- Two memories in canonical form that read alike at every address are equal: the model's representation (log entry 5)
adds no state of its own to R20's byte buffer. -/
def Obligations.CanonicalMemoriesReadAlikeAreEqual : Prop :=
  ∀ m n : Memory, m.wf = true → n.wf = true → (∀ a, m.read a = n.read a) → m = n

/-! ## Encoding and the step -/

/-- Decoding an encoded instruction gives it back, with the bytes after it untouched: every instruction, every operand
value, any bytes following (R100 to R107). -/
def Obligations.DecodeInvertsEncode : Prop :=
  ∀ (i : Instr) (rest : List Byte), decode (encode i ++ rest) = .ok (i, rest)

/-- Whatever decodes to an instruction is that instruction's own encoding: no bit of an opcode byte, of a register block
(R106: "The high four bits of the byte are not ignored") or of a word block is dropped. -/
def Obligations.DecodedBytesAreTheEncoding : Prop :=
  ∀ (bs : List Byte) (i : Instr) (rest : List Byte), decode bs = .ok (i, rest) → bs = encode i ++ rest

/-- R108, R109: an opcode byte that is not one of the 39 of R105 is rejected whatever follows it, and one of the 39
never is. -/
def Obligations.ExactlyThirtyNineOpcodesAreLegal : Prop :=
  legalOpcodes.length = 39 ∧
    ∀ (b : Byte) (rest : List Byte), decode (b :: rest) = .error (.illegalInstruction b) ↔ b ∉ legalOpcodes

/-- A few words written out from the spec's encodings decode to the instructions they stand for (R105, R171, R180, R192,
R200, R210, R221). -/
def Obligations.WrittenOutWordsDecode : Prop :=
  decodeTableWord 16 0x0001 = some (.push .r0) ∧
    decodeTableWord 48 0x000000050043 = some (.movRW .r0 5) ∧
    decodeTableWord 56 0x0000000A000186 = some (.addRRW .r1 .r0 10) ∧
    decodeTableWord 80 0x00000001FFFFFFFF01C6 = some (.addRWW .r1 0xFFFFFFFF 1) ∧
    decodeTableWord 48 0x00000000052E = some (.cmpWR 5 .r0) ∧
    decodeTableWord 40 0x000001202B = some (.jump 0x120) ∧
    decodeTableWord 8 0x13 = some .halt

/-- A step runs the decoded instruction: where the bytes from `pc` decode to `i`, the step is `exec i` on the state with
the engine `Running` (R112). -/
def Obligations.StepRunsDecodedInstruction : Prop :=
  ∀ (s : State) (i : Instr) (rest : List Byte), Dispatching s → decode s.fetchBytes = .ok (i, rest) →
    step s = exec i { s with engine := .running }

/-- The same said of memory alone: where the encoding of `i` lies at `pc` inside memory, whatever the region (R114), the
step is `exec i` (R112). -/
def Obligations.StepExecutesInstructionEncodedAtPc : Prop :=
  ∀ (s : State) (i : Instr), Dispatching s →
    (s.reg .pc).toNat + (encode i).length ≤ s.params.memSize →
    (∀ k, k < (encode i).length → (encode i)[k]? = some (s.byte ((s.reg .pc).toNat + k))) →
    step s = exec i { s with engine := .running }

/-- R112, R114, R248 (1): a `pc` beyond memory faults `OutOfBounds(pc, 1)`. R109, R248 (2): an opcode byte outside the 39
faults `IllegalInstruction`, whatever follows it. -/
def Obligations.OpcodeFetchFaults : Prop :=
  ∀ s : State, Dispatching s →
    (s.params.memSize ≤ (s.reg .pc).toNat → FaultsWith s (.outOfBounds (s.reg .pc).toNat 1) (step s)) ∧
      ((s.reg .pc).toNat < s.params.memSize → s.byte (s.reg .pc).toNat ∉ legalOpcodes →
        FaultsWith s (.illegalInstruction (s.byte (s.reg .pc).toNat)) (step s))

/-- R112, R248 (3): for a legal opcode byte, the first operand block that runs past the end of memory faults
`OutOfBounds` with its own address and size, before any register code is checked. -/
def Obligations.OperandBlockBeyondMemoryFaults : Prop :=
  ∀ (s : State) (m : Mnemonic) (f g : Form) (k : Kind), Dispatching s →
    (s.reg .pc).toNat < s.params.memSize →
    decodeOpcode (s.byte (s.reg .pc).toNat) = some (m, f ++ k :: g) →
    (s.reg .pc).toNat + 1 + blocksLength f ≤ s.params.memSize →
    s.params.memSize < (s.reg .pc).toNat + 1 + blocksLength f + k.size →
    FaultsWith s (.outOfBounds ((s.reg .pc).toNat + 1 + blocksLength f) k.size) (step s)

/-- R106, R112, R248 (4): with every block in bounds, the first register block whose byte is above 15 faults
`InvalidName` with that byte. -/
def Obligations.BadRegisterByteFaults : Prop :=
  ∀ (s : State) (m : Mnemonic) (f g : Form), Dispatching s →
    decodeOpcode (s.byte (s.reg .pc).toNat) = some (m, f ++ .reg :: g) →
    (s.reg .pc).toNat + formLength (f ++ .reg :: g) ≤ s.params.memSize →
    (∀ f₁ f₂ : Form, f = f₁ ++ .reg :: f₂ →
      (s.byte ((s.reg .pc).toNat + 1 + blocksLength f₁)).toNat ≤ 15) →
    15 < (s.byte ((s.reg .pc).toNat + 1 + blocksLength f)).toNat →
    FaultsWith s (.invalidName (s.byte ((s.reg .pc).toNat + 1 + blocksLength f))) (step s)

/-- R250: faults are precise. Whatever step takes the engine into `Faulted` leaves every byte of memory, hence every
register, `pc` and flag, as it was, and records the unchanged `pc`. -/
def Obligations.FaultsArePrecise : Prop :=
  ∀ s t : State, step s = .next t → s.engine ≠ .faulted → t.engine = .faulted →
    t.mem = s.mem ∧ t.params = s.params ∧ t.syscalls = s.syscalls ∧ ∃ c, t.record = some { cause := c, pc := s.reg .pc }

/-- R252, R274: once the engine is `Halted` or `Faulted`, any number of further steps changes nothing. That
each answers the same state, not nothing, is one of R252's two readings (log entry 8). -/
def Obligations.TerminalStatesAreInert : Prop :=
  ∀ (s : State) (k : Nat), s.params.valid = true → s.engine = .halted ∨ s.engine = .faulted →
    Host.Core.run Sys2Proof.core k s = .next s

/-- R29: a step from `Ready` or `Running` leaves the engine `Running`, `Halted` or `Faulted`, never `Ready`. -/
def Obligations.EngineStateTransitions : Prop :=
  ∀ s t : State, Dispatching s → step s = .next t →
    t.engine = .running ∨ t.engine = .halted ∨ t.engine = .faulted

/-- R274: "`Halted` is reached only by executing `HALT`". -/
def Obligations.OnlyHaltHalts : Prop :=
  ∀ s t : State, s.engine ≠ .halted → step s = .next t → t.engine = .halted →
    ∃ rest, decode s.fetchBytes = .ok (.halt, rest)

/-- R113: an instruction outside the fixed set of control transfers leaves `pc` at the cursor, the old `pc` plus the
length of its encoding, whatever its destination register, unless it faults. -/
def Obligations.PcAdvancesByEncodedLength : Prop :=
  ∀ (i : Instr) (s t : State), s.engine ≠ .faulted → ¬ transfersControl i → exec i s = .next t →
    t.engine ≠ .faulted → PcAfter s t i

/-- R34's table of who writes which region, over every instruction: a byte of Region A may change by any; a byte of Region B
changes only by an instruction that writes flags, a byte of general memory only by STORE, a byte of the stack region only
by PUSH or CALL, and no byte beyond memory changes. One exception to the table: a PUSH or CALL with a corrupt `sp` reaches
up to three bytes below `STACK_LIMIT` (R171), which are general memory and, where `STACK_LIMIT <= 71`, Region B as well.
That the model follows R171 there, against R34's "flag writes only", is its own reading (log entry 10). -/
def Obligations.RegionsHaveOnlyTheirWriters : Prop :=
  ∀ (i : Instr) (s t : State) (a : Nat), s.params.valid = true → exec i s = .next t → t.byte a ≠ s.byte a →
    a ≤ 63 ∨
    (64 ≤ a ∧ a ≤ 68 ∧ (writesFlags i ∨ (pushes i ∧ s.params.stackLimit ≤ a + 3))) ∨
    (69 ≤ a ∧ a < s.params.stackLimit ∧
      (mnemonicOf i = .store ∨ (pushes i ∧ s.params.stackLimit ≤ a + 3))) ∨
    (s.params.stackLimit ≤ a ∧ a ≤ s.params.stackBase ∧ pushes i)

/-- R27, R28: every flag byte stays 0 or 1. The premise `72 <= STACK_LIMIT` is the model's finding (log entry 10): on
smaller machines a PUSH with a corrupt `sp` can reach Region B. -/
def Obligations.FlagBytesStayBoolean : Prop :=
  ∀ s t : State, 72 ≤ s.params.stackLimit → FlagBytesBoolean s → step s = .next t → FlagBytesBoolean t

/-- R25: as long as no instruction names `sp` as its destination, `sp` takes only the values `STACK_BASE - 4k` for
`k = 0 .. STACK_SLOTS`. -/
def Obligations.StackPointerStaysInStackRegion : Prop :=
  ∀ (i : Instr) (s t : State), s.params.valid = true → StackPointerOk s → destination i ≠ some .sp →
    exec i s = .next t → StackPointerOk t

/-- R246: `VALIDATION_MODE` changes nothing: the step of a state in another mode is the same step. -/
def Obligations.ValidationModeHasNoEffect : Prop :=
  ∀ (s : State) (v : ValidationMode),
    step { s with params := { s.params with validation := v } } =
      match step s with
      | .next t => .next { t with params := { t.params with validation := v } }
      | .fault f => .fault f
      | .refused r => .refused r

/-! ## Stack instructions -/

/-- R171: PUSH from a state with room subtracts 4 from `sp` and stores `r`'s value, little-endian, at the new `sp`;
PUSH sp stores the decremented value. Nothing else changes but `pc`. -/
def Obligations.PushStoresWordAtNewSp : Prop :=
  ∀ (s : State) (r : Reg), s.params.valid = true →
    s.params.stackLimit < (s.reg .sp).toNat → (s.reg .sp).toNat ≤ s.params.memSize →
    ∃ t, exec (.push r) s = .next t ∧ (t.reg .sp).toNat = (s.reg .sp).toNat - 4 ∧
      t.wordAt ((s.reg .sp).toNat - 4) = (if r = .sp then (s.reg .sp).toNat - 4 else (s.reg r).toNat) ∧
      PcAfter s t (.push r) ∧ SameControl s t ∧
      SameBytesBut s t (fun a => InWord ((s.reg .sp).toNat - 4) a ∨ InReg .sp a ∨ InReg .pc a)

/-- R171, R213: PUSH and CALL raise `StackOverflow` when `sp <= STACK_LIMIT`, and otherwise `OutOfBounds` when the
word at `sp - 4` would end beyond memory; nothing is written. -/
def Obligations.PushAndCallFaults : Prop :=
  ∀ (s : State) (r : Reg) (addr : Word), s.params.valid = true →
    ((s.reg .sp).toNat ≤ s.params.stackLimit →
      FaultsWith s (.stackOverflow (s.reg .sp)) (exec (.push r) s) ∧
        FaultsWith s (.stackOverflow (s.reg .sp)) (exec (.call addr) s)) ∧
      (s.params.memSize < (s.reg .sp).toNat →
        FaultsWith s (.outOfBounds ((s.reg .sp).toNat - 4) 4) (exec (.push r) s) ∧
          FaultsWith s (.outOfBounds ((s.reg .sp).toNat - 4) 4) (exec (.call addr) s))

/-- R172: POP from a non-empty stack loads the word at `sp` into `r` and adds 4 to `sp`; POP sp leaves the loaded word
plus 4; POP pc leaves `pc` at the cursor. Nothing else changes. -/
def Obligations.PopLoadsWordAtSp : Prop :=
  ∀ (s : State) (r : Reg), (s.reg .sp).toNat < s.params.stackBase → (s.reg .sp).toNat + 4 ≤ s.params.memSize →
    ∃ t, exec (.pop r) s = .next t ∧
      (t.reg .sp).toNat = ((if r = .sp then s.wordAt (s.reg .sp).toNat else (s.reg .sp).toNat) + 4) % 2 ^ 32 ∧
      (r ≠ .sp → r ≠ .pc → (t.reg r).toNat = s.wordAt (s.reg .sp).toNat) ∧
      PcAfter s t (.pop r) ∧ SameControl s t ∧ SameBytesBut s t (fun a => InReg r a ∨ InReg .sp a ∨ InReg .pc a)

/-- R172, R214: POP and RET raise `StackUnderflow` when `sp >= STACK_BASE`, and otherwise `OutOfBounds` when the word at
`sp` would end beyond memory; nothing changes. -/
def Obligations.PopAndRetFaults : Prop :=
  ∀ (s : State) (r : Reg),
    (s.params.stackBase ≤ (s.reg .sp).toNat →
      FaultsWith s (.stackUnderflow (s.reg .sp)) (exec (.pop r) s) ∧
        FaultsWith s (.stackUnderflow (s.reg .sp)) (exec .ret s)) ∧
      ((s.reg .sp).toNat < s.params.stackBase → s.params.memSize < (s.reg .sp).toNat + 4 →
        FaultsWith s (.outOfBounds (s.reg .sp).toNat 4) (exec (.pop r) s) ∧
          FaultsWith s (.outOfBounds (s.reg .sp).toNat 4) (exec .ret s))

/-- R170: "From reset (`sp = STACK_BASE`) exactly `STACK_SLOTS` pushes succeed": after any `k <= STACK_SLOTS` of them
the engine still runs and `sp` is `STACK_BASE - 4k`; the next one raises `StackOverflow` and writes nothing. -/
def Obligations.StackHoldsExactlyStackSlots : Prop :=
  ∀ (p : Params) (r : Reg), p.valid = true →
    (∀ k, k ≤ p.stackSlots → ∃ t, execTimes (.push r) k (State.ofParams p).start = some t ∧
      t.engine = .running ∧ (t.reg .sp).toNat = p.stackBase - 4 * k) ∧
    ∃ t, execTimes (.push r) p.stackSlots (State.ofParams p).start = some t ∧
      FaultsWith t (.stackOverflow (t.reg .sp)) (exec (.push r) t)

/-- R170, the stack round trip: from a state with room inside the stack region, PUSH r then POP q gives `q` the value
`r` had and brings `sp` back. `r = sp` pushes the decremented value (R171); `q = sp` and `q = pc` are
`PopLoadsWordAtSp`'s. -/
def Obligations.PushThenPopRestores : Prop :=
  ∀ (s : State) (r q : Reg), s.params.valid = true → s.params.stackLimit < (s.reg .sp).toNat →
    (s.reg .sp).toNat ≤ s.params.stackBase → q ≠ .sp → q ≠ .pc →
    ∃ t u, exec (.push r) s = .next t ∧ exec (.pop q) t = .next u ∧
      u.reg q = (if r = .sp then s.reg .sp - 4 else s.reg r) ∧ u.reg .sp = s.reg .sp ∧ SameControl s u

/-! ## Data movement -/

/-- R180: MOV gives `r` the resolved value of `src` (but `pc`, which the cursor overwrites); no flag and nothing else
changes. -/
def Obligations.MovCopiesSource : Prop :=
  ∀ (s : State) (r : Reg) (src : Operand),
    ∃ t, exec (.mov r src) s = .next t ∧ (r ≠ .pc → t.reg r = s.val src) ∧ PcAfter s t (.mov r src) ∧
      SameControl s t ∧ SameBytesBut s t (fun a => InReg r a ∨ InReg .pc a)

/-- R181: LOAD of an in-bounds address gives `r` the four bytes there, little-endian, from any region. -/
def Obligations.LoadReadsFourBytes : Prop :=
  ∀ (s : State) (r : Reg) (addr : Word), addr.toNat + 4 ≤ s.params.memSize →
    ∃ t, exec (.load r addr) s = .next t ∧ (r ≠ .pc → (t.reg r).toNat = s.wordAt addr.toNat) ∧
      PcAfter s t (.load r addr) ∧ SameControl s t ∧ SameBytesBut s t (fun a => InReg r a ∨ InReg .pc a)

/-- R181: LOAD raises `OutOfBounds` when `addr + 4 > MEM_SIZE`, with no wrap into low memory (R61). -/
def Obligations.LoadOutOfBoundsFaults : Prop :=
  ∀ (s : State) (r : Reg) (addr : Word), s.params.memSize < addr.toNat + 4 →
    FaultsWith s (.outOfBounds addr.toNat 4) (exec (.load r addr) s)

/-- R182, R68: STORE accepts exactly the addresses 69 to `STACK_LIMIT - 4`; there it writes `r`'s value little-endian
and changes nothing else but `pc`. -/
def Obligations.StoreWritesGeneralMemory : Prop :=
  ∀ (s : State) (r : Reg) (addr : Word), s.params.valid = true → 69 ≤ addr.toNat →
    addr.toNat + 4 ≤ s.params.stackLimit →
    ∃ t, exec (.store r addr) s = .next t ∧ t.wordAt addr.toNat = (s.reg r).toNat ∧ PcAfter s t (.store r addr) ∧
      SameControl s t ∧ SameBytesBut s t (fun a => InWord addr.toNat a ∨ InReg .pc a)

/-- R182, R66, R68: at every other address STORE faults, in this order: `OutOfBounds`, then `RegionCollision` naming the
first region met of registers, flags, stack. Nothing is written. -/
def Obligations.StoreFaultsInOrder : Prop :=
  ∀ (s : State) (r : Reg) (addr : Word),
    (s.params.memSize < addr.toNat + 4 →
      FaultsWith s (.outOfBounds addr.toNat 4) (exec (.store r addr) s)) ∧
    (addr.toNat + 4 ≤ s.params.memSize → addr.toNat ≤ 63 →
      FaultsWith s (.regionCollision .registers addr) (exec (.store r addr) s)) ∧
    (addr.toNat + 4 ≤ s.params.memSize → 64 ≤ addr.toNat → addr.toNat ≤ 68 →
      FaultsWith s (.regionCollision .flags addr) (exec (.store r addr) s)) ∧
    (addr.toNat + 4 ≤ s.params.memSize → 69 ≤ addr.toNat → s.params.stackLimit < addr.toNat + 4 →
      FaultsWith s (.regionCollision .stack addr) (exec (.store r addr) s))

/-- R75: any STORE into general memory is seen by every later fetch of its bytes. Wherever the word lies, the fetch right
after the STORE reads its bytes where the two overlap and the old bytes elsewhere (but `pc`'s own four, R24), and so does
a fetch at any other `pc` from that memory. -/
def Obligations.StoreIsSeenByNextFetch : Prop :=
  ∀ (s : State) (r : Reg) (addr : Word), s.params.valid = true → 69 ≤ addr.toNat →
    addr.toNat + 4 ≤ s.params.stackLimit →
    ∃ t, exec (.store r addr) s = .next t ∧ t.reg .pc = s.reg .pc + 6 ∧
      (∀ k, k < t.fetchLength → InWord addr.toNat ((t.reg .pc).toNat + k) →
        t.fetchBytes[k]? = (wordBytes (s.reg r))[(t.reg .pc).toNat + k - addr.toNat]?) ∧
      (∀ k, k < t.fetchLength → ¬ InWord addr.toNat ((t.reg .pc).toNat + k) → ¬ InReg .pc ((t.reg .pc).toNat + k) →
        t.fetchBytes[k]? = some (s.byte ((t.reg .pc).toNat + k))) ∧
      (∀ (q : Word) (k : Nat), k < (t.setReg .pc q).fetchLength → InWord addr.toNat (q.toNat + k) →
        (t.setReg .pc q).fetchBytes[k]? = (wordBytes (s.reg r))[q.toNat + k - addr.toNat]?)

/-! ## Arithmetic -/

/-- R192: ADD, in its four forms: the sum modulo 2^32 in `dst` (but `pc`, which the cursor overwrites), all five flags,
nothing else. -/
def Obligations.AddWritesSumAndFiveFlags : Prop :=
  ∀ (s : State) (dst : Reg) (x y : Operand),
    ∃ t, exec (.add dst x y) s = .next t ∧
      (dst ≠ .pc → (t.reg dst).toNat = ((s.val x).toNat + (s.val y).toNat) % 2 ^ 32) ∧
      HasFlags5 t (((s.val x).toNat + (s.val y).toNat) % 2 ^ 32) (0xFFFFFFFF < (s.val x).toNat + (s.val y).toNat)
        (OutOfSigned ((s.val x).toInt + (s.val y).toInt)) ∧
      PcAfter s t (.add dst x y) ∧ SameControl s t ∧
      SameBytesBut s t (fun a => InReg dst a ∨ InReg .pc a ∨ InFlags a)

/-- R193: SUB, in its four forms: the difference modulo 2^32, `CF` the unsigned borrow, all five flags, nothing else. -/
def Obligations.SubWritesDifferenceAndFiveFlags : Prop :=
  ∀ (s : State) (dst : Reg) (x y : Operand),
    ∃ t, exec (.sub dst x y) s = .next t ∧
      (dst ≠ .pc → (t.reg dst).toNat = ((s.val x).toNat + 2 ^ 32 - (s.val y).toNat) % 2 ^ 32) ∧
      HasFlags5 t (((s.val x).toNat + 2 ^ 32 - (s.val y).toNat) % 2 ^ 32) ((s.val x).toNat < (s.val y).toNat)
        (OutOfSigned ((s.val x).toInt - (s.val y).toInt)) ∧
      PcAfter s t (.sub dst x y) ∧ SameControl s t ∧
      SameBytesBut s t (fun a => InReg dst a ∨ InReg .pc a ∨ InFlags a)

/-- R194: MUL, in its four forms: the product modulo 2^32; only `ZF` and `SF` are written. -/
def Obligations.MulWritesWrappedProduct : Prop :=
  ∀ (s : State) (dst : Reg) (x y : Operand),
    ∃ t, exec (.mul dst x y) s = .next t ∧
      (dst ≠ .pc → (t.reg dst).toNat = ((s.val x).toNat * (s.val y).toNat) % 2 ^ 32) ∧
      HasFlagsZS s t (((s.val x).toNat * (s.val y).toNat) % 2 ^ 32) ∧
      PcAfter s t (.mul dst x y) ∧ SameControl s t ∧
      SameBytesBut s t (fun a => InReg dst a ∨ InReg .pc a ∨ InZeroOrSign a)

/-- R195: DIV, in its four forms, with a non-zero divisor: the unsigned floor quotient; only `ZF` and `SF` are
written. -/
def Obligations.DivWritesQuotient : Prop :=
  ∀ (s : State) (dst : Reg) (x y : Operand), (s.val y).toNat ≠ 0 →
    ∃ t, exec (.div dst x y) s = .next t ∧
      (dst ≠ .pc → (t.reg dst).toNat = (s.val x).toNat / (s.val y).toNat) ∧
      HasFlagsZS s t ((s.val x).toNat / (s.val y).toNat) ∧
      PcAfter s t (.div dst x y) ∧ SameControl s t ∧
      SameBytesBut s t (fun a => InReg dst a ∨ InReg .pc a ∨ InZeroOrSign a)

/-- R196: MOD, in its four forms, with a non-zero divisor: the unsigned remainder; only `ZF` and `SF` are written. -/
def Obligations.ModWritesRemainder : Prop :=
  ∀ (s : State) (dst : Reg) (x y : Operand), (s.val y).toNat ≠ 0 →
    ∃ t, exec (.mod dst x y) s = .next t ∧
      (dst ≠ .pc → (t.reg dst).toNat = (s.val x).toNat % (s.val y).toNat) ∧
      HasFlagsZS s t ((s.val x).toNat % (s.val y).toNat) ∧
      PcAfter s t (.mod dst x y) ∧ SameControl s t ∧
      SameBytesBut s t (fun a => InReg dst a ∨ InReg .pc a ∨ InZeroOrSign a)

/-- R195, R196: DIV and MOD with a zero divisor raise `DivisionByZero`; `dst` and the flags are unchanged. -/
def Obligations.ZeroDivisorFaults : Prop :=
  ∀ (s : State) (dst : Reg) (x y : Operand), (s.val y).toNat = 0 →
    FaultsWith s .divisionByZero (exec (.div dst x y) s) ∧ FaultsWith s .divisionByZero (exec (.mod dst x y) s)

/-- R197: for all `X` and all `Y != 0`, `X = (X div Y) * Y + (X mod Y)` with `X mod Y < Y`, read off the registers
that DIV and MOD leave. -/
def Obligations.DivAndModRecomposeDividend : Prop :=
  ∀ (s : State) (d e : Reg) (x y : Operand), (s.val y).toNat ≠ 0 → d ≠ .pc → e ≠ .pc →
    ∃ t u, exec (.div d x y) s = .next t ∧ exec (.mod e x y) s = .next u ∧
      (s.val x).toNat = (t.reg d).toNat * (s.val y).toNat + (u.reg e).toNat ∧
      (u.reg e).toNat < (s.val y).toNat

/-- R192, R193 (G2, G3): the bit formulas for `OVF` agree with the definition by signed range: after ADD it is bit 31 of
`(X xor R) and (Y xor R)`, after SUB bit 31 of `(X xor Y) and (X xor R)`. -/
def Obligations.OverflowBitFormulasAgree : Prop :=
  ∀ (s : State) (dst : Reg) (x y : Operand),
    ∃ t u, exec (.add dst x y) s = .next t ∧ exec (.sub dst x y) s = .next u ∧
      t.flag .ovf = ((s.val x ^^^ (s.val x + s.val y)) &&& (s.val y ^^^ (s.val x + s.val y))).msb ∧
      u.flag .ovf = ((s.val x ^^^ s.val y) &&& (s.val x ^^^ (s.val x - s.val y))).msb

/-! ## Compare and test -/

/-- R200: CMP, in its four forms, writes the five flags of the difference exactly as SUB would, and no register but
`pc`. -/
def Obligations.CmpWritesFiveFlagsOnly : Prop :=
  ∀ (s : State) (x y : Operand),
    ∃ t, exec (.cmp x y) s = .next t ∧
      HasFlags5 t (((s.val x).toNat + 2 ^ 32 - (s.val y).toNat) % 2 ^ 32) ((s.val x).toNat < (s.val y).toNat)
        (OutOfSigned ((s.val x).toInt - (s.val y).toInt)) ∧
      PcAfter s t (.cmp x y) ∧ SameControl s t ∧ SameBytesBut s t (fun a => InReg .pc a ∨ InFlags a)

/-- R200, reading the outcome of CMP: `ZF` is equality, `CF` unsigned less-than, and `SF xor OVF` signed less-than. -/
def Obligations.CmpOutcomeReadsAsOrder : Prop :=
  ∀ (s : State) (x y : Operand),
    ∃ t, exec (.cmp x y) s = .next t ∧ (t.flag .zf = true ↔ s.val x = s.val y) ∧
      (t.flag .cf = true ↔ (s.val x).toNat < (s.val y).toNat) ∧
      ((t.flag .sf ^^ t.flag .ovf) = true ↔ (s.val x).toInt < (s.val y).toInt)

/-- R201: TEST writes `ZF` and `SF` of the register's value and nothing else but `pc`. -/
def Obligations.TestWritesZeroAndSign : Prop :=
  ∀ (s : State) (r : Reg),
    ∃ t, exec (.test r) s = .next t ∧ HasFlagsZS s t (s.reg r).toNat ∧ PcAfter s t (.test r) ∧ SameControl s t ∧
      SameBytesBut s t (fun a => InReg .pc a ∨ InZeroOrSign a)

/-! ## Control transfer -/

/-- R210: JUMP sets `pc` to the operand, any 32-bit value, and changes nothing else. -/
def Obligations.JumpSetsPc : Prop :=
  ∀ (s : State) (addr : Word),
    ∃ t, exec (.jump addr) s = .next t ∧ t.reg .pc = addr ∧ SameControl s t ∧ SameBytesBut s t (InReg .pc)

/-- R211, R212: JUMP_IF_ZERO transfers exactly when `ZF` is 1 and JUMP_IF_CARRY exactly when `CF` is 1; untaken, `pc`
advances past the instruction. Nothing else changes. -/
def Obligations.ConditionalJumpsFollowTheirFlag : Prop :=
  ∀ (s : State) (addr : Word),
    (∃ t, exec (.jumpIfZero addr) s = .next t ∧
      (s.flag .zf = true → t.reg .pc = addr) ∧ (s.flag .zf = false → PcAfter s t (.jumpIfZero addr)) ∧
      SameControl s t ∧ SameBytesBut s t (InReg .pc)) ∧
    (∃ t, exec (.jumpIfCarry addr) s = .next t ∧
      (s.flag .cf = true → t.reg .pc = addr) ∧ (s.flag .cf = false → PcAfter s t (.jumpIfCarry addr)) ∧
      SameControl s t ∧ SameBytesBut s t (InReg .pc))

/-- R213: CALL from a state with room pushes the address of the instruction after it (its own address plus 5) and sets
`pc` to the operand. No register but `sp` and `pc` changes. -/
def Obligations.CallPushesReturnAddress : Prop :=
  ∀ (s : State) (addr : Word), s.params.valid = true →
    s.params.stackLimit < (s.reg .sp).toNat → (s.reg .sp).toNat ≤ s.params.memSize →
    ∃ t, exec (.call addr) s = .next t ∧ t.reg .pc = addr ∧ (t.reg .sp).toNat = (s.reg .sp).toNat - 4 ∧
      t.wordAt ((s.reg .sp).toNat - 4) = (s.reg .pc + 5).toNat ∧ SameControl s t ∧
      SameBytesBut s t (fun a => InWord ((s.reg .sp).toNat - 4) a ∨ InReg .sp a ∨ InReg .pc a)

/-- R214: RET from a non-empty stack sets `pc` to the word at `sp` and adds 4 to `sp`. Nothing else changes. -/
def Obligations.RetPopsIntoPc : Prop :=
  ∀ s : State, (s.reg .sp).toNat < s.params.stackBase → (s.reg .sp).toNat + 4 ≤ s.params.memSize →
    ∃ t, exec .ret s = .next t ∧ (t.reg .pc).toNat = s.wordAt (s.reg .sp).toNat ∧ t.reg .sp = s.reg .sp + 4 ∧
      SameControl s t ∧ SameBytesBut s t (fun a => InReg .sp a ∨ InReg .pc a)

/-- R214: CALL then RET resumes at the instruction immediately after the CALL, with `sp` restored; no register has
changed but `pc`. -/
def Obligations.CallThenRetReturns : Prop :=
  ∀ (s : State) (addr : Word), s.params.valid = true → s.params.stackLimit < (s.reg .sp).toNat →
    (s.reg .sp).toNat ≤ s.params.stackBase →
    ∃ t u, exec (.call addr) s = .next t ∧ exec .ret t = .next u ∧ u.reg .pc = s.reg .pc + 5 ∧
      (∀ r : Reg, r ≠ .pc → u.reg r = s.reg r) ∧ SameControl s u

/-! ## System -/

/-- R220, R221: NOP changes nothing but `pc`; HALT makes the engine `Halted` and still advances `pc`. -/
def Obligations.NopAdvancesAndHaltStops : Prop :=
  ∀ s : State,
    (∃ t, exec .nop s = .next t ∧ PcAfter s t .nop ∧ SameControl s t ∧ SameBytesBut s t (InReg .pc)) ∧
    (∃ t, exec .halt s = .next t ∧ t.engine = .halted ∧ PcAfter s t .halt ∧ t.params = s.params ∧
      t.record = s.record ∧ t.syscalls = s.syscalls ∧ SameBytesBut s t (InReg .pc))

/-- R222, R223, for a host given as a catalogue: SYSCALL completes on an answer `Return(v)` or `NoValue`. `Return(v)` puts
`v` into `acc`; `NoValue` leaves it; no flag, no other register and no other byte changes but `pc`. The catalogue answers
served words with their row's answer and words of no row with `Fail` ("the selector names no operation"). That the host is
a table, and that the first of several rows for the same words answers, are the model's choices, as is the call counter
(log entry 3). -/
def Obligations.SyscallWritesAnswerToAcc : Prop :=
  ∀ (s : State) (v : Word) (rows : List SyscallRow), s.params.handler = .catalogue rows →
    (lookupAnswer (s.reg .acc) (s.reg .r0) (s.reg .r1) (s.reg .r2) (s.reg .r3) rows = .value v →
      ∃ t, exec .syscall s = .next t ∧ t.reg .acc = v ∧ PcAfter s t .syscall ∧ t.engine = s.engine ∧
        t.record = s.record ∧ t.params = s.params ∧ t.syscalls = s.syscalls + 1 ∧
        SameBytesBut s t (fun a => InReg .acc a ∨ InReg .pc a)) ∧
    (lookupAnswer (s.reg .acc) (s.reg .r0) (s.reg .r1) (s.reg .r2) (s.reg .r3) rows = .noValue →
      ∃ t, exec .syscall s = .next t ∧ PcAfter s t .syscall ∧ t.engine = s.engine ∧ t.record = s.record ∧
        t.params = s.params ∧ t.syscalls = s.syscalls + 1 ∧ SameBytesBut s t (InReg .pc)) ∧
    (lookupAnswer (s.reg .acc) (s.reg .r0) (s.reg .r1) (s.reg .r2) (s.reg .r3) rows = .fail →
      FaultsWith s (.syscallFault (s.reg .acc)) (exec .syscall s)) ∧
    (∀ before row after, rows = before ++ row :: after →
      Serves row (s.reg .acc) (s.reg .r0) (s.reg .r1) (s.reg .r2) (s.reg .r3) →
      (∀ q ∈ before, ¬ Serves q (s.reg .acc) (s.reg .r0) (s.reg .r1) (s.reg .r2) (s.reg .r3)) →
      lookupAnswer (s.reg .acc) (s.reg .r0) (s.reg .r1) (s.reg .r2) (s.reg .r3) rows = row.answer) ∧
    ((∀ q ∈ rows, ¬ Serves q (s.reg .acc) (s.reg .r0) (s.reg .r1) (s.reg .r2) (s.reg .r3)) →
      lookupAnswer (s.reg .acc) (s.reg .r0) (s.reg .r1) (s.reg .r2) (s.reg .r3) rows = .fail)

/-- R222, R223 for a host that is not known: whatever it answers, the SYSCALL does what R222 says of that answer and changes
nothing else but `pc` and the model's call counter. The answer is a free value (log entry 3), so the last clause says the
same of every answer given, of which each can be shown. -/
def Obligations.SyscallFollowsAnyHost : Prop :=
  ∀ s : State, s.params.handler = .unknown →
    FollowsAnswer s (Config.hostAnswer s.syscalls (s.reg .acc) (s.reg .r0) (s.reg .r1) (s.reg .r2) (s.reg .r3))
      (exec .syscall s) ∧
    exec .syscall s =
      s.answered (Config.hostAnswer s.syscalls (s.reg .acc) (s.reg .r0) (s.reg .r1) (s.reg .r2) (s.reg .r3)) ∧
    ∀ a : SyscallAnswer, FollowsAnswer s a (s.answered a)

/-- R223: "With no handler supplied every `SYSCALL` answers `Fail`", so it raises `SyscallFault` with `acc`. -/
def Obligations.SyscallWithoutHandlerFaults : Prop :=
  ∀ s : State, s.params.handler = .absent → FaultsWith s (.syscallFault (s.reg .acc)) (exec .syscall s)

/-! ## The host's load and the assembler -/

/-- R272, R5: a load into a `Ready` engine with `69 <= CODE_BASE` and `CODE_BASE + length(image) <= STACK_LIMIT` is
accepted: the image stands at `CODE_BASE`, `pc` addresses its first byte, and nothing else changes. In any other engine
state it is refused; an image that does not end inside memory is refused for that; one of at least one byte that meets a
reserved region is refused for the first it meets; and no load outside the constraint is accepted (U11). Two choices are
the model's: an empty image outside the constraint is refused where R272's procedure would accept it (log entry 15), and
the errors have names. -/
def Obligations.LoadPlacesImageAtCodeBase : Prop :=
  ∀ (s : State) (image : List Byte), s.params.valid = true →
    (s.engine = .ready → 69 ≤ s.params.codeBase → s.params.codeBase + image.length ≤ s.params.stackLimit →
      ∃ t, s.load image = .ok t ∧ (t.reg .pc).toNat = s.params.codeBase ∧
        (∀ k, k < image.length → image[k]? = some (t.byte (s.params.codeBase + k))) ∧ SameControl s t ∧
        SameBytesBut s t
          (fun a => InReg .pc a ∨ (s.params.codeBase ≤ a ∧ a < s.params.codeBase + image.length))) ∧
    (s.engine ≠ .ready → s.load image = .error .notReady) ∧
    (s.engine = .ready → s.params.memSize < s.params.codeBase + image.length →
      s.load image = .error .outOfMemory) ∧
    (s.engine = .ready → s.params.codeBase + image.length ≤ s.params.memSize → image ≠ [] →
      (s.params.codeBase ≤ 63 → s.load image = .error (.regionCollision .registers)) ∧
      (64 ≤ s.params.codeBase → s.params.codeBase ≤ 68 → s.load image = .error (.regionCollision .flags)) ∧
      (69 ≤ s.params.codeBase → s.params.stackLimit < s.params.codeBase + image.length →
        s.load image = .error (.regionCollision .stack))) ∧
    (s.params.codeBase < 69 ∨ s.params.stackLimit < s.params.codeBase + image.length →
      ∃ e, s.load image = .error e)

/-- R135: "The number of bytes appended equals `size(line)`": a successful assembly has as many bytes as the sizes of
pass 1 add up to, so pass 1's label addresses are the addresses pass 2 produces. -/
def Obligations.AssembledLengthIsSumOfSizes : Prop :=
  ∀ (lines : List Text) (origin : Nat) (body : List SourceLine) (bytes : List Byte),
    findBody (normalise lines) = some body → assemble lines origin = .ok bytes →
    bytes.length = instructionBytes body

/-- R125, R126: a label resolves to the load address plus the total size of the instruction lines before its last
definition. -/
def Obligations.LabelResolvesToLastDefinition : Prop :=
  ∀ (origin : Nat) (before after : List SourceLine) (l : SourceLine) (name : Text),
    l.labelName = some name → (∀ k ∈ after, k.labelName ≠ some name) →
    resolveLabel (labelTable origin (before ++ l :: after)) name = some (origin + instructionBytes before)

/-- R108 case (c), R136: a statement with the right operand count and a form the engine gives no meaning assembles to
bytes, and the decoder rejects its opcode byte whatever follows; with a legal form it decodes to the instruction. -/
def Obligations.AssembledStatementsDecodeOrAreIllegal : Prop :=
  ∀ (stmt : Stmt) (rest : List Byte), stmt.arityOk = true →
    (stmt.formOk = true → ∃ i, stmt.toInstr = some i ∧ decode (stmt.encode ++ rest) = .ok (i, rest)) ∧
    (stmt.formOk = false →
      decode (stmt.encode ++ rest) =
        .error (.illegalInstruction (opcodeByte stmt.mnemonic stmt.form)))

/-- R137: the first failing line of the body is the one reported, and no bytes are returned. -/
def Obligations.FirstFailingLineIsReported : Prop :=
  ∀ (table : List (Text × Nat)) (before after : List SourceLine) (l : SourceLine) (e : AsmError) (bytes : List Byte),
    encodeBody table before = .ok bytes → l.labelName = none → parseLine table l = .error e →
    encodeBody table (before ++ l :: after) = .error e
end

