-- ==== Sys2Proof/Laws/Bytes.lean ====
section
/-! SUPPORT. Little-endian packing: unpacking gives back what was packed, and the other way round (rule R63). -/

namespace Sys2Proof

@[simp] theorem leBytes_length (n v : Nat) : (leBytes n v).length = n := by
  induction n generalizing v with
  | zero => rfl
  | succ n ih => simp [leBytes, ih]

@[simp] theorem wordBytes_length (w : Word) : (wordBytes w).length = 4 := leBytes_length 4 w.toNat

/-- Packing keeps the number modulo `256^n`. -/
theorem leValue_leBytes (n v : Nat) : leValue (leBytes n v) = v % 256 ^ n := by
  induction n generalizing v with
  | zero => simp [leBytes, leValue, Nat.mod_one]
  | succ n ih =>
    have h : v % 256 ^ (n + 1) = v % 256 + 256 * (v / 256 % 256 ^ n) := by
      rw [Nat.pow_succ' (m := 256) (n := n), Nat.mod_mul]
    rw [leBytes, leValue, ih, BitVec.toNat_ofNat, h]

theorem leValue_lt (bs : List Byte) : leValue bs < 256 ^ bs.length := by
  induction bs with
  | nil => simp [leValue]
  | cons b bs ih =>
    have := b.isLt
    simp only [leValue, List.length_cons, Nat.pow_succ']
    omega

/-- Bytes are what their number packs to. -/
theorem leBytes_leValue (bs : List Byte) : leBytes bs.length (leValue bs) = bs := by
  induction bs with
  | nil => rfl
  | cons b bs ih =>
    have hb := b.isLt
    have hq : (b.toNat + 256 * leValue bs) / 256 = leValue bs := by omega
    rw [List.length_cons, leBytes, leValue, hq, ih]
    congr 1
    apply BitVec.eq_of_toNat_eq
    rw [BitVec.toNat_ofNat]
    omega

@[simp] theorem leWord_wordBytes (w : Word) : leWord (wordBytes w) = w := by
  apply BitVec.eq_of_toNat_eq
  have := w.isLt
  simp only [leWord, wordBytes, leValue_leBytes, BitVec.toNat_ofNat]
  omega

theorem wordBytes_leWord (bs : List Byte) (h : bs.length = 4) : wordBytes (leWord bs) = bs := by
  have hlt := leValue_lt bs
  rw [h] at hlt
  have : (leWord bs).toNat = leValue bs := by
    simp only [leWord, BitVec.toNat_ofNat]
    exact Nat.mod_eq_of_lt hlt
  rw [wordBytes, this, ← h, leBytes_leValue]

end Sys2Proof
end

