-- ==== Sys2Proof/Laws/Memory.lean ====
section
/-! SUPPORT. The laws of memory (rules R61 to R63): a read after a write, bytes left alone, the canonical form kept by
every operation, and equality of canonical memories that read alike. -/

namespace Sys2Proof.Machine

theorem Memory.read_erase (m : Memory) (a c : Nat) :
    (m.erase a).read c = if a = c then unlistedByte else m.read c := by
  induction m with
  | nil => simp [Memory.erase, Memory.read]
  | cons kv m ih =>
    obtain ⟨k, v⟩ := kv
    simp only [Memory.erase, Memory.read]
    split_ifs <;> simp_all [Memory.read]

theorem Memory.read_insert (m : Memory) (a c : Nat) (b : Byte) (h : ∀ e ∈ m, e.1 ≠ a) :
    (m.insert a b).read c = if a = c then b else m.read c := by
  induction m with
  | nil => simp [Memory.insert, Memory.read]
  | cons kv m ih =>
    obtain ⟨k, v⟩ := kv
    have hk : k ≠ a := h (k, v) List.mem_cons_self
    have ih' := ih (fun e he => h e (List.mem_cons_of_mem _ he))
    simp only [Memory.insert, Memory.read]
    split_ifs <;> simp_all [Memory.read]

theorem Memory.erase_ne (m : Memory) (a : Nat) : ∀ e ∈ m.erase a, e.1 ≠ a := by
  induction m with
  | nil => simp [Memory.erase]
  | cons kv m ih =>
    obtain ⟨k, v⟩ := kv
    simp only [Memory.erase]
    split_ifs with hk
    · exact ih
    · simpa [hk] using ih

/-- One byte written is read back; every other byte is left alone (R62). -/
theorem Memory.read_write (m : Memory) (a c : Nat) (b : Byte) :
    (m.write a b).read c = if a = c then b else m.read c := by
  unfold Memory.write
  split_ifs with hb hac hac
  · subst hac hb; simp [Memory.read_erase]
  · simp [Memory.read_erase, hac]
  · subst hac; simp [Memory.read_insert _ _ _ _ (Memory.erase_ne m a)]
  · simp [Memory.read_insert _ _ _ _ (Memory.erase_ne m a), Memory.read_erase, hac]

/-- Bytes outside the written range are left alone (R62). -/
theorem Memory.read_writeBytes_outside (m : Memory) (a c : Nat) (bs : List Byte)
    (h : c < a ∨ a + bs.length ≤ c) : (m.writeBytes a bs).read c = m.read c := by
  induction bs generalizing m a with
  | nil => rfl
  | cons b bs ih =>
    simp only [List.length_cons] at h
    rw [Memory.writeBytes, ih _ _ (by omega), Memory.read_write, if_neg (by omega)]

/-- A byte inside the written range is the byte written there (R62). -/
theorem Memory.read_writeBytes_inside (m : Memory) (a k : Nat) (bs : List Byte) (h : k < bs.length) :
    (m.writeBytes a bs).read (a + k) = bs[k] := by
  induction bs generalizing m a k with
  | nil => simp at h
  | cons b bs ih =>
    rw [Memory.writeBytes]
    cases k with
    | zero => simp [Memory.read_writeBytes_outside, Memory.read_write]
    | succ k =>
      have := ih (m.write a b) (a + 1) k (by simpa using h)
      rw [show a + (k + 1) = a + 1 + k by omega, this]
      rfl

@[simp] theorem Memory.readBytes_length (m : Memory) (a n : Nat) : (m.readBytes a n).length = n := by
  induction n generalizing a with
  | zero => rfl
  | succ n ih => simp [Memory.readBytes, ih]

theorem Memory.getElem_readBytes (m : Memory) (a n k : Nat) (h : k < (m.readBytes a n).length) :
    (m.readBytes a n)[k] = m.read (a + k) := by
  induction n generalizing a k with
  | zero => simp at h
  | succ n ih =>
    cases k with
    | zero => rfl
    | succ k =>
      have := ih (a + 1) k (by simpa using h)
      rw [show a + (k + 1) = a + 1 + k by omega, ← this]
      rfl

/-- Reads depend on the bytes read and nothing else. -/
theorem Memory.readBytes_congr (m m' : Memory) (a n : Nat) (h : ∀ k < n, m.read (a + k) = m'.read (a + k)) :
    m.readBytes a n = m'.readBytes a n := by
  apply List.ext_getElem (by simp)
  intro k h₁ h₂
  rw [Memory.getElem_readBytes, Memory.getElem_readBytes]
  exact h k (by simpa using h₁)

/-- A range written is read back (R63). -/
theorem Memory.readBytes_writeBytes_same (m : Memory) (a : Nat) (bs : List Byte) :
    (m.writeBytes a bs).readBytes a bs.length = bs := by
  apply List.ext_getElem (by simp)
  intro k h₁ h₂
  rw [Memory.getElem_readBytes, Memory.read_writeBytes_inside _ _ _ _ h₂]

/-- A range that does not meet the written one reads as before (R62). -/
theorem Memory.readBytes_writeBytes_disjoint (m : Memory) (a c n : Nat) (bs : List Byte)
    (h : c + n ≤ a ∨ a + bs.length ≤ c) : (m.writeBytes a bs).readBytes c n = m.readBytes c n := by
  apply Memory.readBytes_congr
  intro k hk
  exact Memory.read_writeBytes_outside _ _ _ _ (by omega)

/-- Writing one byte elsewhere leaves a range alone. -/
theorem Memory.readBytes_write_disjoint (m : Memory) (a c n : Nat) (b : Byte) (h : a < c ∨ c + n ≤ a) :
    (m.write a b).readBytes c n = m.readBytes c n := by
  apply Memory.readBytes_congr
  intro k hk
  rw [Memory.read_write, if_neg (by omega)]

theorem Memory.wf_cons (a : Nat) (b : Byte) (m : Memory) :
    Memory.wf ((a, b) :: m) = true ↔ b ≠ unlistedByte ∧ (∀ e ∈ m, a < e.1) ∧ m.wf = true := by
  simp [Memory.wf, and_assoc]

theorem Memory.mem_erase {m : Memory} {a : Nat} {e : Host.Cell} (h : e ∈ m.erase a) : e ∈ m := by
  induction m with
  | nil => simp [Memory.erase] at h
  | cons kv m ih =>
    obtain ⟨k, v⟩ := kv
    simp only [Memory.erase] at h
    split_ifs at h
    · exact List.mem_cons_of_mem _ (ih h)
    · rcases List.mem_cons.mp h with h | h
      · exact h ▸ List.mem_cons_self
      · exact List.mem_cons_of_mem _ (ih h)

theorem Memory.mem_insert {m : Memory} {a : Nat} {b : Byte} {e : Host.Cell} (h : e ∈ m.insert a b) :
    e = (a, b) ∨ e ∈ m := by
  induction m with
  | nil => simpa [Memory.insert] using h
  | cons kv m ih =>
    obtain ⟨k, v⟩ := kv
    simp only [Memory.insert] at h
    split_ifs at h
    · rcases List.mem_cons.mp h with h | h
      · exact .inl h
      · exact .inr h
    · rcases List.mem_cons.mp h with h | h
      · exact .inr (h ▸ List.mem_cons_self)
      · rcases ih h with h | h
        · exact .inl h
        · exact .inr (List.mem_cons_of_mem _ h)

theorem Memory.erase_wf {m : Memory} (a : Nat) (h : m.wf = true) : (m.erase a).wf = true := by
  induction m with
  | nil => rfl
  | cons kv m ih =>
    obtain ⟨k, v⟩ := kv
    obtain ⟨hv, hk, hm⟩ := (Memory.wf_cons k v m).mp h
    simp only [Memory.erase]
    split_ifs
    · exact ih hm
    · exact (Memory.wf_cons _ _ _).mpr ⟨hv, fun e he => hk e (Memory.mem_erase he), ih hm⟩

theorem Memory.insert_wf {m : Memory} (a : Nat) (b : Byte) (h : m.wf = true) (hb : b ≠ unlistedByte)
    (ha : ∀ e ∈ m, e.1 ≠ a) : (m.insert a b).wf = true := by
  induction m with
  | nil => exact (Memory.wf_cons _ _ _).mpr ⟨hb, by simp, rfl⟩
  | cons kv m ih =>
    obtain ⟨k, v⟩ := kv
    obtain ⟨hv, hk, hm⟩ := (Memory.wf_cons k v m).mp h
    have hka : k ≠ a := ha (k, v) List.mem_cons_self
    simp only [Memory.insert]
    split_ifs with hlt
    · refine (Memory.wf_cons _ _ _).mpr ⟨hb, ?_, h⟩
      intro e he
      rcases List.mem_cons.mp he with he | he
      · exact he ▸ hlt
      · exact Nat.lt_trans hlt (hk e he)
    · refine (Memory.wf_cons _ _ _).mpr ⟨hv, ?_, ih hm (fun e he => ha e (List.mem_cons_of_mem _ he))⟩
      intro e he
      rcases Memory.mem_insert he with he | he
      · subst he; change k < a; omega
      · exact hk e he

/-- A write keeps the canonical form. -/
theorem Memory.write_wf {m : Memory} (a : Nat) (b : Byte) (h : m.wf = true) : (m.write a b).wf = true := by
  unfold Memory.write
  split_ifs with hb
  · exact Memory.erase_wf a h
  · exact Memory.insert_wf a b (Memory.erase_wf a h) hb (Memory.erase_ne m a)

/-- A write of several bytes keeps the canonical form. -/
theorem Memory.writeBytes_wf {m : Memory} (a : Nat) (bs : List Byte) (h : m.wf = true) :
    (m.writeBytes a bs).wf = true := by
  induction bs generalizing m a with
  | nil => exact h
  | cons b bs ih => exact ih (a + 1) (Memory.write_wf a b h)

/-- A write lists no address but its own and those listed before. -/
theorem Memory.write_below {m : Memory} {a : Nat} {b : Byte} {n : Nat} (h : ∀ e ∈ m, e.1 < n) (ha : a < n) :
    ∀ e ∈ m.write a b, e.1 < n := by
  intro e he
  unfold Memory.write at he
  split_ifs at he
  · exact h e (Memory.mem_erase he)
  · rcases Memory.mem_insert he with he | he
    · subst he; exact ha
    · exact h e (Memory.mem_erase he)

/-- A write inside a bound lists no address beyond it. -/
theorem Memory.writeBytes_below {m : Memory} {a : Nat} {bs : List Byte} {n : Nat} (h : ∀ e ∈ m, e.1 < n)
    (ha : a + bs.length ≤ n) : ∀ e ∈ m.writeBytes a bs, e.1 < n := by
  induction bs generalizing m a with
  | nil => exact h
  | cons b bs ih =>
    simp only [List.length_cons] at ha
    exact ih (Memory.write_below h (by omega)) (by omega)

/-- A byte read below every listed address is the unlisted byte. -/
theorem Memory.read_below {m : Memory} {a : Nat} (h : ∀ e ∈ m, a < e.1) : m.read a = unlistedByte := by
  induction m with
  | nil => rfl
  | cons kv m ih =>
    obtain ⟨k, v⟩ := kv
    have hk : a < k := h (k, v) List.mem_cons_self
    rw [Memory.read, if_neg (by omega)]
    exact ih (fun e he => h e (List.mem_cons_of_mem _ he))

end Sys2Proof.Machine
end

