-- ==== Sys2Proof/Laws/State.lean ====
section
/-! SUPPORT. One lemma per field per update of the state, true by rfl. -/

namespace Sys2Proof.Machine

@[simp] theorem State.setReg_params (s : State) (r : Reg) (v : Word) : (s.setReg r v).params = s.params := rfl

@[simp] theorem State.setReg_engine (s : State) (r : Reg) (v : Word) : (s.setReg r v).engine = s.engine := rfl

@[simp] theorem State.setReg_record (s : State) (r : Reg) (v : Word) : (s.setReg r v).record = s.record := rfl

@[simp] theorem State.setReg_syscalls (s : State) (r : Reg) (v : Word) : (s.setReg r v).syscalls = s.syscalls := rfl

@[simp] theorem State.setFlag_params (s : State) (f : Flag) (b : Bool) : (s.setFlag f b).params = s.params := rfl

@[simp] theorem State.setFlag_engine (s : State) (f : Flag) (b : Bool) : (s.setFlag f b).engine = s.engine := rfl

@[simp] theorem State.setFlag_record (s : State) (f : Flag) (b : Bool) : (s.setFlag f b).record = s.record := rfl

@[simp] theorem State.setFlag_syscalls (s : State) (f : Flag) (b : Bool) : (s.setFlag f b).syscalls = s.syscalls := rfl

@[simp] theorem State.setFlags5_params (s : State) (r : Word) (c v : Bool) : (s.setFlags5 r c v).params = s.params := rfl

@[simp] theorem State.setFlags5_engine (s : State) (r : Word) (c v : Bool) : (s.setFlags5 r c v).engine = s.engine := rfl

@[simp] theorem State.setFlags5_record (s : State) (r : Word) (c v : Bool) : (s.setFlags5 r c v).record = s.record := rfl

@[simp] theorem State.setFlags5_syscalls (s : State) (r : Word) (c v : Bool) : (s.setFlags5 r c v).syscalls = s.syscalls := rfl

@[simp] theorem State.setFlagsZS_params (s : State) (r : Word) : (s.setFlagsZS r).params = s.params := rfl

@[simp] theorem State.setFlagsZS_engine (s : State) (r : Word) : (s.setFlagsZS r).engine = s.engine := rfl

@[simp] theorem State.setFlagsZS_record (s : State) (r : Word) : (s.setFlagsZS r).record = s.record := rfl

@[simp] theorem State.setFlagsZS_syscalls (s : State) (r : Word) : (s.setFlagsZS r).syscalls = s.syscalls := rfl

@[simp] theorem State.transfer_params (s : State) (t : Word) : (s.transfer t).params = s.params := rfl

@[simp] theorem State.transfer_engine (s : State) (t : Word) : (s.transfer t).engine = s.engine := rfl

@[simp] theorem State.transfer_record (s : State) (t : Word) : (s.transfer t).record = s.record := rfl

@[simp] theorem State.transfer_syscalls (s : State) (t : Word) : (s.transfer t).syscalls = s.syscalls := rfl

@[simp] theorem State.raise_params (s : State) (c : FaultCause) : (s.raise c).params = s.params := rfl

@[simp] theorem State.raise_mem (s : State) (c : FaultCause) : (s.raise c).mem = s.mem := rfl

@[simp] theorem State.raise_syscalls (s : State) (c : FaultCause) : (s.raise c).syscalls = s.syscalls := rfl

@[simp] theorem State.start_params (s : State) : (s.start).params = s.params := rfl

@[simp] theorem State.start_mem (s : State) : (s.start).mem = s.mem := rfl

@[simp] theorem State.start_record (s : State) : (s.start).record = s.record := rfl

@[simp] theorem State.start_syscalls (s : State) : (s.start).syscalls = s.syscalls := rfl

@[simp] theorem State.placeImage_params (s : State) (image : List Byte) : (s.placeImage image).params = s.params := rfl

@[simp] theorem State.placeImage_engine (s : State) (image : List Byte) : (s.placeImage image).engine = s.engine := rfl

@[simp] theorem State.placeImage_record (s : State) (image : List Byte) : (s.placeImage image).record = s.record := rfl

@[simp] theorem State.placeImage_syscalls (s : State) (image : List Byte) : (s.placeImage image).syscalls = s.syscalls := rfl

@[simp] theorem State.raise_engine (s : State) (c : FaultCause) : (s.raise c).engine = .faulted := rfl

@[simp] theorem State.raise_record (s : State) (c : FaultCause) :
    (s.raise c).record = some { cause := c, pc := s.reg .pc } := rfl

@[simp] theorem State.start_engine (s : State) : s.start.engine = .running := rfl

@[simp] theorem State.setReg_mem (s : State) (r : Reg) (v : Word) :
    (s.setReg r v).mem = s.mem.writeBytes (regAddr r) (wordBytes v) := rfl

@[simp] theorem State.setFlag_mem (s : State) (f : Flag) (b : Bool) :
    (s.setFlag f b).mem = s.mem.write (flagAddr f) (if b then 1 else 0) := rfl

@[simp] theorem State.ofParams_params (p : Params) : (State.ofParams p).params = p := rfl

@[simp] theorem State.ofParams_engine (p : Params) : (State.ofParams p).engine = .ready := rfl

@[simp] theorem State.ofParams_record (p : Params) : (State.ofParams p).record = none := rfl

@[simp] theorem State.ofParams_syscalls (p : Params) : (State.ofParams p).syscalls = 0 := rfl

@[simp] theorem State.ofParams_mem (p : Params) : (State.ofParams p).mem = resetMemory p := rfl

/-- Registers are read from memory alone. -/
theorem State.reg_congr {s t : State} (h : t.mem = s.mem) (r : Reg) : t.reg r = s.reg r := by
  simp only [State.reg, h]

/-- Flags are read from memory alone. -/
theorem State.flag_congr {s t : State} (h : t.mem = s.mem) (f : Flag) : t.flag f = s.flag f := by
  simp only [State.flag, h]

@[simp] theorem State.raise_reg (s : State) (c : FaultCause) (r : Reg) : (s.raise c).reg r = s.reg r := rfl

@[simp] theorem State.raise_flag (s : State) (c : FaultCause) (f : Flag) : (s.raise c).flag f = s.flag f := rfl

@[simp] theorem State.start_reg (s : State) (r : Reg) : s.start.reg r = s.reg r := rfl

@[simp] theorem State.start_flag (s : State) (f : Flag) : s.start.flag f = s.flag f := rfl

end Sys2Proof.Machine
end

