-- ==== Sys2Proof/Laws/Registers.lean ====
section
/-! SUPPORT. Registers and flags as bytes of memory (rules R22, R27, R64, R65): what a write of one does to every byte,
register and flag. -/

namespace Sys2Proof.Machine

theorem Reg.code_lt (r : Reg) : r.code < 16 := by cases r <;> decide

theorem Reg.code_injective {r q : Reg} (h : r.code = q.code) : r = q := by
  revert h; cases r <;> cases q <;> decide

@[simp] theorem Reg.ofCode_code (r : Reg) : Reg.ofCode r.code = some r := by cases r <;> rfl

theorem Reg.code_ofCode {n : Nat} {r : Reg} (h : Reg.ofCode n = some r) : r.code = n := by
  unfold Reg.ofCode at h
  split at h <;> first | (cases h; rfl) | cases h

theorem Flag.code_lt (f : Flag) : f.code < 5 := by cases f <;> decide

theorem Flag.code_injective {f g : Flag} (h : f.code = g.code) : f = g := by
  revert h; cases f <;> cases g <;> decide

/-- Region A is bytes 0 to 63 (R22). -/
theorem regAddr_bound (r : Reg) : regAddr r + 4 ≤ 64 := by
  have := Reg.code_lt r
  unfold regAddr; omega

/-- Region B is bytes 64 to 68 (R27). -/
theorem flagAddr_bound (f : Flag) : 64 ≤ flagAddr f ∧ flagAddr f ≤ 68 := by
  have := Flag.code_lt f
  unfold flagAddr flagBase; omega

/-- Registers do not overlap (R22). -/
theorem regAddr_disjoint {r q : Reg} (h : r ≠ q) : regAddr r + 4 ≤ regAddr q ∨ regAddr q + 4 ≤ regAddr r := by
  have : r.code ≠ q.code := fun e => h (Reg.code_injective e)
  unfold regAddr; omega

theorem flagAddr_injective {f g : Flag} (h : flagAddr f = flagAddr g) : f = g :=
  Flag.code_injective (by unfold flagAddr at h; omega)

/-- A register write changes no byte outside the register's four (R64). -/
theorem State.setReg_read_outside (s : State) (r : Reg) (v : Word) (a : Nat)
    (h : a < regAddr r ∨ regAddr r + 4 ≤ a) : (s.setReg r v).mem.read a = s.mem.read a :=
  Memory.read_writeBytes_outside _ _ _ _ (by simpa using h)

/-- A flag write changes one byte (R65). -/
theorem State.setFlag_read (s : State) (f : Flag) (b : Bool) (a : Nat) :
    (s.setFlag f b).mem.read a = if flagAddr f = a then (if b then 1 else 0) else s.mem.read a :=
  Memory.read_write _ _ _ _

/-- The register round trip (R64). -/
@[simp] theorem State.reg_setReg_same (s : State) (r : Reg) (v : Word) : (s.setReg r v).reg r = v := by
  have h := Memory.readBytes_writeBytes_same s.mem (regAddr r) (wordBytes v)
  rw [wordBytes_length] at h
  rw [State.reg, State.setReg_mem, h, leWord_wordBytes]

/-- A register write leaves the other registers alone. -/
theorem State.reg_setReg_ne (s : State) {r q : Reg} (v : Word) (h : q ≠ r) : (s.setReg r v).reg q = s.reg q := by
  have hd := regAddr_disjoint h
  rw [State.reg, State.setReg_mem, Memory.readBytes_writeBytes_disjoint _ _ _ _ _ (by simpa using hd)]
  rfl

theorem State.reg_setReg (s : State) (r q : Reg) (v : Word) :
    (s.setReg r v).reg q = if q = r then v else s.reg q := by
  split_ifs with h
  · subst h; exact State.reg_setReg_same s q v
  · exact State.reg_setReg_ne s v h

/-- A register write leaves the flags alone. -/
@[simp] theorem State.flag_setReg (s : State) (r : Reg) (v : Word) (f : Flag) : (s.setReg r v).flag f = s.flag f := by
  have hr := regAddr_bound r
  have hf := flagAddr_bound f
  rw [State.flag, State.setReg_read_outside _ _ _ _ (by omega)]
  rfl

/-- A flag write leaves the registers alone. -/
@[simp] theorem State.reg_setFlag (s : State) (f : Flag) (b : Bool) (r : Reg) : (s.setFlag f b).reg r = s.reg r := by
  have hr := regAddr_bound r
  have hf := flagAddr_bound f
  rw [State.reg, State.setFlag_mem, Memory.readBytes_write_disjoint _ _ _ _ _ (by omega)]
  rfl

theorem State.flag_setFlag (s : State) (f g : Flag) (b : Bool) :
    (s.setFlag f b).flag g = if g = f then b else s.flag g := by
  rw [State.flag, State.setFlag_read]
  by_cases h : g = f
  · subst h; cases b <;> simp
  · have : flagAddr f ≠ flagAddr g := fun e => h (flagAddr_injective e).symm
    rw [if_neg this, if_neg h]; rfl

@[simp] theorem State.reg_setFlags5 (s : State) (r : Word) (c v : Bool) (q : Reg) :
    (s.setFlags5 r c v).reg q = s.reg q := by simp [State.setFlags5]

@[simp] theorem State.reg_setFlagsZS (s : State) (r : Word) (q : Reg) : (s.setFlagsZS r).reg q = s.reg q := by
  simp [State.setFlagsZS]

/-- `SetFlags5` writes all five flags (R191). -/
theorem State.flag_setFlags5 (s : State) (r : Word) (c v : Bool) (f : Flag) :
    (s.setFlags5 r c v).flag f =
      match f with
      | .zf => r == 0
      | .cf => c
      | .ovf => v
      | .sf => r.msb
      | .pf => parityEven r := by
  cases f <;> simp [State.setFlags5, State.flag_setFlag]

/-- The two-flag write keeps `CF`, `OVF` and `PF` (R194, R201). -/
theorem State.flag_setFlagsZS (s : State) (r : Word) (f : Flag) :
    (s.setFlagsZS r).flag f =
      match f with
      | .zf => r == 0
      | .sf => r.msb
      | g => s.flag g := by
  cases f <;> simp [State.setFlagsZS, State.flag_setFlag]

/-- `SetFlags5` changes no byte outside Region B. -/
theorem State.setFlags5_read_outside (s : State) (r : Word) (c v : Bool) (a : Nat) (h : a < 64 ∨ 68 < a) :
    (s.setFlags5 r c v).mem.read a = s.mem.read a := by
  have hz := flagAddr_bound .zf
  have hc := flagAddr_bound .cf
  have ho := flagAddr_bound .ovf
  have hs := flagAddr_bound .sf
  have hp := flagAddr_bound .pf
  simp only [State.setFlags5, State.setFlag_read]
  split_ifs <;> first | omega | rfl

/-- The two-flag write changes no byte outside those of `ZF` and `SF`. -/
theorem State.setFlagsZS_read_outside (s : State) (r : Word) (a : Nat) (h : a ≠ 64) (h' : a ≠ 67) :
    (s.setFlagsZS r).mem.read a = s.mem.read a := by
  have hz : flagAddr .zf = 64 := rfl
  have hs : flagAddr .sf = 67 := rfl
  simp only [State.setFlagsZS, State.setFlag_read, hz, hs]
  split_ifs <;> first | omega | rfl

theorem State.setReg_wf {s : State} (r : Reg) (v : Word) (h : s.mem.wf = true) : (s.setReg r v).mem.wf = true :=
  Memory.writeBytes_wf _ _ h

theorem State.setFlag_wf {s : State} (f : Flag) (b : Bool) (h : s.mem.wf = true) : (s.setFlag f b).mem.wf = true :=
  Memory.write_wf _ _ h

theorem State.setFlags5_wf {s : State} (r : Word) (c v : Bool) (h : s.mem.wf = true) :
    (s.setFlags5 r c v).mem.wf = true := by
  unfold State.setFlags5
  exact State.setFlag_wf _ _ (State.setFlag_wf _ _ (State.setFlag_wf _ _ (State.setFlag_wf _ _ (State.setFlag_wf _ _ h))))

theorem State.setFlagsZS_wf {s : State} (r : Word) (h : s.mem.wf = true) : (s.setFlagsZS r).mem.wf = true :=
  State.setFlag_wf _ _ (State.setFlag_wf _ _ h)

end Sys2Proof.Machine
end

