-- ==== Sys2Proof/Laws/Ops.lean ====
section
/-! SUPPORT. One specification lemma per shared operation: all that it can do (rules R61 to R66, R113, R170, R182,
R192 to R196, R250). -/

namespace Sys2Proof.Machine

theorem State.inBounds_iff (s : State) (addr len : Nat) :
    s.inBounds addr len = true ↔ addr + len ≤ s.params.memSize := by simp [State.inBounds]

/-- `MemRead` (R61, R63). -/
theorem State.memRead_ok_iff (s : State) (addr : Nat) (v : Word) :
    s.memRead addr = .ok v ↔ addr + 4 ≤ s.params.memSize ∧ v = leWord (s.mem.readBytes addr 4) := by
  unfold State.memRead
  simp only [State.inBounds_iff]
  split_ifs with h <;> simp_all [eq_comm]

/-- `MemRead` raises nothing but `OutOfBounds(addr, 4)` (R61). -/
theorem State.memRead_error_iff (s : State) (addr : Nat) (c : FaultCause) :
    s.memRead addr = .error c ↔ s.params.memSize < addr + 4 ∧ c = .outOfBounds addr 4 := by
  unfold State.memRead
  simp only [State.inBounds_iff]
  split_ifs with h <;> simp_all [eq_comm]

/-- `MemWrite` (R62). -/
theorem State.memWrite_ok_iff (s t : State) (addr : Nat) (v : Word) :
    s.memWrite addr v = .ok t ↔
      addr + 4 ≤ s.params.memSize ∧ t = { s with mem := s.mem.writeBytes addr (wordBytes v) } := by
  unfold State.memWrite
  simp only [State.inBounds_iff]
  split_ifs with h <;> simp_all [eq_comm]

/-- `MemWrite` raises nothing but `OutOfBounds(addr, 4)` (R62). -/
theorem State.memWrite_error_iff (s : State) (addr : Nat) (v : Word) (c : FaultCause) :
    s.memWrite addr v = .error c ↔ s.params.memSize < addr + 4 ∧ c = .outOfBounds addr 4 := by
  unfold State.memWrite
  simp only [State.inBounds_iff]
  split_ifs with h <;> simp_all [eq_comm]

theorem overlaps_iff (addr n first last : Nat) :
    overlaps addr n first last = true ↔ addr ≤ last ∧ first + 1 ≤ addr + n := by simp [overlaps]

/-- `WriteSafe` passes exactly when no reserved region is met (R66). -/
theorem collision_none_iff (p : Params) (addr n : Nat) :
    collision p addr n = none ↔
      ¬ (addr ≤ 63 ∧ 1 ≤ addr + n) ∧ ¬ (addr ≤ 68 ∧ 65 ≤ addr + n) ∧
        ¬ (addr ≤ p.stackBase ∧ p.stackLimit + 1 ≤ addr + n) := by
  unfold collision
  simp only [overlaps_iff, regBase, regEnd, flagBase, flagEnd]
  split_ifs <;> simp_all

/-- What a push does when it is not refused (R170, R171). -/
theorem State.pushWord_ok_iff (s t : State) (v : Word) :
    s.pushWord v = .ok t ↔
      s.params.stackLimit < (s.reg .sp).toNat ∧ (s.reg .sp - 4).toNat + 4 ≤ s.params.memSize ∧
        t = State.setReg { s with mem := s.mem.writeBytes (s.reg .sp - 4).toNat (wordBytes v) } .sp (s.reg .sp - 4) := by
  unfold State.pushWord
  split_ifs with h
  · simp; omega
  · cases hw : s.memWrite (s.reg .sp - 4).toNat v with
    | error c =>
      have hb := ((State.memWrite_error_iff _ _ _ _).mp hw).1
      simp only [reduceCtorEq, false_iff, not_and]
      intro _ hb'; omega
    | ok u =>
      obtain ⟨hb, rfl⟩ := (State.memWrite_ok_iff _ _ _ _).mp hw
      simp only [Except.ok.injEq]
      constructor
      · rintro rfl; exact ⟨by omega, hb, rfl⟩
      · rintro ⟨_, _, rfl⟩; rfl

/-- Why a push is refused: `StackOverflow` first, then `OutOfBounds` (R171, R248). -/
theorem State.pushWord_error_iff (s : State) (v : Word) (c : FaultCause) :
    s.pushWord v = .error c ↔
      ((s.reg .sp).toNat ≤ s.params.stackLimit ∧ c = .stackOverflow (s.reg .sp)) ∨
      (s.params.stackLimit < (s.reg .sp).toNat ∧ s.params.memSize < (s.reg .sp - 4).toNat + 4 ∧
        c = .outOfBounds (s.reg .sp - 4).toNat 4) := by
  unfold State.pushWord
  split_ifs with h
  · simp only [Except.error.injEq]
    constructor
    · rintro rfl; exact .inl ⟨h, rfl⟩
    · rintro (⟨_, rfl⟩ | ⟨h', _⟩)
      · rfl
      · omega
  · cases hw : s.memWrite (s.reg .sp - 4).toNat v with
    | error d =>
      obtain ⟨hb, rfl⟩ := (State.memWrite_error_iff _ _ _ _).mp hw
      simp only [Except.error.injEq]
      constructor
      · rintro rfl; exact .inr ⟨by omega, hb, rfl⟩
      · rintro (⟨h', _⟩ | ⟨_, _, rfl⟩)
        · omega
        · rfl
    | ok u =>
      have hb := ((State.memWrite_ok_iff _ _ _ _).mp hw).1
      simp only [reduceCtorEq, false_iff, not_or, not_and]
      exact ⟨fun h' => absurd h' h, fun _ hb' => by omega⟩

/-- What reading the top of the stack gives (R172, R214). -/
theorem State.topWord_ok_iff (s : State) (v : Word) :
    s.topWord = .ok v ↔
      (s.reg .sp).toNat < s.params.stackBase ∧ (s.reg .sp).toNat + 4 ≤ s.params.memSize ∧
        v = leWord (s.mem.readBytes (s.reg .sp).toNat 4) := by
  unfold State.topWord
  split_ifs with h
  · simp; omega
  · rw [State.memRead_ok_iff]
    constructor
    · rintro ⟨h1, h2⟩; exact ⟨by omega, h1, h2⟩
    · rintro ⟨_, h1, h2⟩; exact ⟨h1, h2⟩

/-- Why reading the top of the stack is refused: `StackUnderflow` first, then `OutOfBounds` (R172, R248). -/
theorem State.topWord_error_iff (s : State) (c : FaultCause) :
    s.topWord = .error c ↔
      (s.params.stackBase ≤ (s.reg .sp).toNat ∧ c = .stackUnderflow (s.reg .sp)) ∨
      ((s.reg .sp).toNat < s.params.stackBase ∧ s.params.memSize < (s.reg .sp).toNat + 4 ∧
        c = .outOfBounds (s.reg .sp).toNat 4) := by
  unfold State.topWord
  split_ifs with h
  · simp only [Except.error.injEq]
    constructor
    · rintro rfl; exact .inl ⟨h, rfl⟩
    · rintro (⟨_, rfl⟩ | ⟨h', _⟩)
      · rfl
      · omega
  · rw [State.memRead_error_iff]
    constructor
    · rintro ⟨h1, h2⟩; exact .inr ⟨by omega, h1, h2⟩
    · rintro (⟨h', _⟩ | ⟨_, h1, h2⟩)
      · omega
      · exact ⟨h1, h2⟩

/-- What a store does when it is not refused (R182). -/
theorem State.storeWord_ok_iff (s t : State) (addr v : Word) :
    s.storeWord addr v = .ok t ↔
      addr.toNat + 4 ≤ s.params.memSize ∧ collision s.params addr.toNat 4 = none ∧
        t = { s with mem := s.mem.writeBytes addr.toNat (wordBytes v) } := by
  unfold State.storeWord
  simp only [State.inBounds_iff]
  split_ifs with h
  · cases hc : collision s.params addr.toNat 4 with
    | some region => simp
    | none => simp [State.memWrite_ok_iff, h]
  · simp [h]

/-- Why a store is refused: `OutOfBounds` first, then `RegionCollision` (R182, R248). -/
theorem State.storeWord_error_iff (s : State) (addr v : Word) (c : FaultCause) :
    s.storeWord addr v = .error c ↔
      (s.params.memSize < addr.toNat + 4 ∧ c = .outOfBounds addr.toNat 4) ∨
      (addr.toNat + 4 ≤ s.params.memSize ∧
        ∃ region, collision s.params addr.toNat 4 = some region ∧ c = .regionCollision region addr) := by
  unfold State.storeWord
  simp only [State.inBounds_iff]
  split_ifs with h
  · cases hc : collision s.params addr.toNat 4 with
    | some region => simp [h, eq_comm]
    | none => simp [State.memWrite_error_iff]
  · simp only [Except.error.injEq]
    constructor
    · rintro rfl; exact .inl ⟨by omega, rfl⟩
    · rintro (⟨_, rfl⟩ | ⟨h', _⟩)
      · rfl
      · omega

/-- The end of a step that does not set `pc` itself (R113): the next state, whichever way it goes. -/
theorem State.advance_eq (s : State) (f : Form) (r : Result) :
    s.advance f r = .next (match r with | .ok t => t.setReg .pc (s.cursor f) | .error c => s.raise c) := by
  cases r <;> rfl

/-- The end of a step that set `pc` itself (R113). -/
theorem State.conclude_eq (s : State) (r : Result) :
    s.conclude r = .next (match r with | .ok t => t | .error c => s.raise c) := by
  cases r <;> rfl

@[simp] theorem State.advance_ok (s t : State) (f : Form) :
    s.advance f (.ok t) = .next (t.setReg .pc (s.cursor f)) := rfl

@[simp] theorem State.advance_error (s : State) (f : Form) (c : FaultCause) :
    s.advance f (.error c) = .next (s.raise c) := rfl

@[simp] theorem State.conclude_ok (s t : State) : s.conclude (.ok t) = .next t := rfl

@[simp] theorem State.conclude_error (s : State) (c : FaultCause) : s.conclude (.error c) = .next (s.raise c) := rfl

@[simp] theorem State.val_reg (s : State) (r : Reg) : s.val (.reg r) = s.reg r := rfl

@[simp] theorem State.val_word (s : State) (w : Word) : s.val (.word w) = w := rfl

/-- `DIV` in its two cases (R195). -/
theorem State.divTo_cases (s : State) (dst : Reg) (x y : Word) :
    (y = 0 ∧ s.divTo dst x y = .error .divisionByZero) ∨
      (y ≠ 0 ∧ s.divTo dst x y = .ok ((s.setReg dst (x / y)).setFlagsZS (x / y))) := by
  unfold State.divTo
  split_ifs with h
  · exact .inl ⟨h, rfl⟩
  · exact .inr ⟨h, rfl⟩

/-- `MOD` in its two cases (R196). -/
theorem State.modTo_cases (s : State) (dst : Reg) (x y : Word) :
    (y = 0 ∧ s.modTo dst x y = .error .divisionByZero) ∨
      (y ≠ 0 ∧ s.modTo dst x y = .ok ((s.setReg dst (x % y)).setFlagsZS (x % y))) := by
  unfold State.modTo
  split_ifs with h
  · exact .inl ⟨h, rfl⟩
  · exact .inr ⟨h, rfl⟩

/-- The five flags and the result of `ADD` together (R192). -/
theorem State.addTo_eq (s : State) (dst : Reg) (x y : Word) :
    s.addTo dst x y = .ok ((s.setReg dst (x + y)).setFlags5 (x + y) (addCarry x y) (addOverflow x y)) := rfl

/-- The five flags and the result of `SUB` together (R193). -/
theorem State.subTo_eq (s : State) (dst : Reg) (x y : Word) :
    s.subTo dst x y = .ok ((s.setReg dst (x - y)).setFlags5 (x - y) (subBorrow x y) (subOverflow x y)) := rfl

/-- The two flags and the result of `MUL` together (R194). -/
theorem State.mulTo_eq (s : State) (dst : Reg) (x y : Word) :
    s.mulTo dst x y = .ok ((s.setReg dst (x * y)).setFlagsZS (x * y)) := rfl

/-- `CMP` writes flags and nothing else (R200). -/
theorem State.compare_eq (s : State) (x y : Word) :
    s.compare x y = .ok (s.setFlags5 (x - y) (subBorrow x y) (subOverflow x y)) := rfl

end Sys2Proof.Machine
end

