-- ==== Sys2Proof/Laws/Claims.lean ====
section
/-! SUPPORT. Lemmas about the terms claims are stated in (Safety.lean): words read and written by address, the length of
an encoding, and a taken fault. -/

namespace Sys2Proof.Machine

/-- Four bytes read as a word are the number of R63. -/
theorem State.toNat_leWord_readBytes (s : State) (a : Nat) :
    (leWord (s.mem.readBytes a 4)).toNat = s.wordAt a := by
  have h0 := (s.byte a).isLt
  have h1 := (s.byte (a + 1)).isLt
  have h2 := (s.byte (a + 2)).isLt
  have h3 := (s.byte (a + 3)).isLt
  simp only [State.wordAt]
  simp only [State.byte] at *
  simp only [leWord, Memory.readBytes, leValue, BitVec.toNat_ofNat, Nat.add_assoc, Nat.reduceAdd]
  omega

theorem State.toNat_reg (s : State) (r : Reg) : (s.reg r).toNat = s.wordAt (4 * r.code) :=
  State.toNat_leWord_readBytes s _

/-- A word written reads back at its address (R63). -/
theorem State.wordAt_writeBytes (s : State) (a : Nat) (v : Word) :
    State.wordAt { s with mem := s.mem.writeBytes a (wordBytes v) } a = v.toNat := by
  rw [← State.toNat_leWord_readBytes]
  have h := Memory.readBytes_writeBytes_same s.mem a (wordBytes v)
  rw [wordBytes_length] at h
  simp only [h, leWord_wordBytes]

/-- Words are read from bytes alone. -/
theorem State.wordAt_congr {s t : State} {a : Nat} (h : ∀ k < 4, t.byte (a + k) = s.byte (a + k)) :
    t.wordAt a = s.wordAt a := by
  have h0 := h 0 (by omega)
  have h1 := h 1 (by omega)
  have h2 := h 2 (by omega)
  have h3 := h 3 (by omega)
  simp only [Nat.add_zero] at h0
  simp only [State.wordAt, h0, h1, h2, h3]

@[simp] theorem encodeOperand_length (o : Operand) : (encodeOperand o).length = o.kind.size := by
  cases o <;> simp [encodeOperand, Operand.kind, Kind.size]

theorem flatMap_encodeOperand_length (ops : List Operand) :
    (ops.flatMap encodeOperand).length = blocksLength (ops.map Operand.kind) := by
  induction ops with
  | nil => rfl
  | cons o ops ih => simp [blocksLength, ih]

/-- The length of a statement's bytes is its form's (R103, R135). -/
theorem Stmt.encode_length (t : Stmt) : t.encode.length = formLength t.form := by
  rw [Stmt.encode, List.length_cons, flatMap_encodeOperand_length, formLength, Stmt.form, Nat.add_comm]

theorem encode_length (i : Instr) : (encode i).length = formLength i.toStmt.form := Stmt.encode_length _

/-- The cursor of an instruction is `pc` plus the length of its encoding (R112). -/
theorem State.cursor_eq (s : State) (i : Instr) :
    s.cursor i.toStmt.form = s.reg .pc + BitVec.ofNat 32 (encode i).length := by
  rw [State.cursor, encode_length]

/-- Raising a fault is a fault taken (R250). -/
theorem FaultsWith.raise (s : State) (c : FaultCause) : FaultsWith s c (.next (s.raise c)) :=
  ⟨_, rfl, rfl, rfl, rfl, rfl, rfl⟩

/-- A register write keeps every byte outside the register. -/
theorem State.byte_setReg (s : State) (r : Reg) (v : Word) {a : Nat} (h : ¬ InReg r a) :
    (s.setReg r v).byte a = s.byte a :=
  State.setReg_read_outside s r v a (by unfold InReg at h; unfold regAddr; omega)

theorem State.byte_setFlags5 (s : State) (r : Word) (c v : Bool) {a : Nat} (h : ¬ InFlags a) :
    (s.setFlags5 r c v).byte a = s.byte a :=
  State.setFlags5_read_outside s r c v a (by unfold InFlags at h; omega)

theorem State.byte_setFlagsZS (s : State) (r : Word) {a : Nat} (h : ¬ InZeroOrSign a) :
    (s.setFlagsZS r).byte a = s.byte a :=
  State.setFlagsZS_read_outside s r a (by unfold InZeroOrSign at h; omega) (by unfold InZeroOrSign at h; omega)

/-- A word write keeps every byte outside the word. -/
theorem State.byte_writeWord (s : State) (n : Nat) (v : Word) {a : Nat} (h : ¬ InWord n a) :
    State.byte { s with mem := s.mem.writeBytes n (wordBytes v) } a = s.byte a :=
  Memory.read_writeBytes_outside _ _ _ _ (by unfold InWord at h; simp; omega)

end Sys2Proof.Machine
end

