-- ==== Sys2Proof/Laws/PerInstr.lean ====
section
/-! SUPPORT. Facts about every instruction as syntax, one lemma per constructor: its mnemonic and operands pass the checks
of WellFormed.lean and stand for it again, its opcode byte reads back as its mnemonic and form, and its form's length is
one of those of rule R105. -/

namespace Sys2Proof.Laws

/-- The opcode byte of a legal form reads back as the mnemonic and the form (R101, R105). -/
theorem decodeOpcode_opcodeByte (m : Mnemonic) :
    ∀ f ∈ m.legalForms, decodeOpcode (opcodeByte m f) = some (m, f) := by cases m <;> decide

/-- No legal form is longer than ten bytes (R70, R105). -/
theorem formLength_le (m : Mnemonic) : ∀ f ∈ m.legalForms, formLength f ≤ maxInstrLength := by cases m <;> decide

/-- The shape of an instruction's encoding (R101, R103, R105). -/
def EncodingShape.Statement (i : Instr) : Prop :=
  i.wellFormed = true ∧ i.toStmt.toInstr = some i ∧
    decodeOpcode (opcodeByte i.toStmt.mnemonic i.toStmt.form) = some (i.toStmt.mnemonic, i.toStmt.form) ∧
    formLength i.toStmt.form ≤ maxInstrLength

/-- The shape follows from the form being legal. -/
theorem EncodingShape.of_legal (i : Instr) (hw : i.wellFormed = true) (ht : i.toStmt.toInstr = some i)
    (hf : i.toStmt.form ∈ i.toStmt.mnemonic.legalForms) : EncodingShape.Statement i :=
  ⟨hw, ht, decodeOpcode_opcodeByte _ _ hf, formLength_le _ _ hf⟩

theorem EncodingShape.push : ∀ (r : Reg), EncodingShape.Statement (.push r) :=
  fun _ => of_legal _ rfl rfl (by decide : [.reg] ∈ Mnemonic.legalForms .push)

theorem EncodingShape.pop : ∀ (r : Reg), EncodingShape.Statement (.pop r) :=
  fun _ => of_legal _ rfl rfl (by decide : [.reg] ∈ Mnemonic.legalForms .pop)

theorem EncodingShape.movRR : ∀ (r src : Reg), EncodingShape.Statement (.movRR r src) :=
  fun _ _ => of_legal _ rfl rfl (by decide : [.reg, .reg] ∈ Mnemonic.legalForms .mov)

theorem EncodingShape.movRW : ∀ (r : Reg) (src : Word), EncodingShape.Statement (.movRW r src) :=
  fun _ _ => of_legal _ rfl rfl (by decide : [.reg, .word] ∈ Mnemonic.legalForms .mov)

theorem EncodingShape.load : ∀ (r : Reg) (addr : Word), EncodingShape.Statement (.load r addr) :=
  fun _ _ => of_legal _ rfl rfl (by decide : [.reg, .word] ∈ Mnemonic.legalForms .load)

theorem EncodingShape.store : ∀ (r : Reg) (addr : Word), EncodingShape.Statement (.store r addr) :=
  fun _ _ => of_legal _ rfl rfl (by decide : [.reg, .word] ∈ Mnemonic.legalForms .store)

theorem EncodingShape.addRRR : ∀ (dst x y : Reg), EncodingShape.Statement (.addRRR dst x y) :=
  fun _ _ _ => of_legal _ rfl rfl (by decide : [.reg, .reg, .reg] ∈ Mnemonic.legalForms .add)

theorem EncodingShape.addRWR : ∀ (dst : Reg) (x : Word) (y : Reg), EncodingShape.Statement (.addRWR dst x y) :=
  fun _ _ _ => of_legal _ rfl rfl (by decide : [.reg, .word, .reg] ∈ Mnemonic.legalForms .add)

theorem EncodingShape.addRRW : ∀ (dst x : Reg) (y : Word), EncodingShape.Statement (.addRRW dst x y) :=
  fun _ _ _ => of_legal _ rfl rfl (by decide : [.reg, .reg, .word] ∈ Mnemonic.legalForms .add)

theorem EncodingShape.addRWW : ∀ (dst : Reg) (x y : Word), EncodingShape.Statement (.addRWW dst x y) :=
  fun _ _ _ => of_legal _ rfl rfl (by decide : [.reg, .word, .word] ∈ Mnemonic.legalForms .add)

theorem EncodingShape.subRRR : ∀ (dst x y : Reg), EncodingShape.Statement (.subRRR dst x y) :=
  fun _ _ _ => of_legal _ rfl rfl (by decide : [.reg, .reg, .reg] ∈ Mnemonic.legalForms .sub)

theorem EncodingShape.subRWR : ∀ (dst : Reg) (x : Word) (y : Reg), EncodingShape.Statement (.subRWR dst x y) :=
  fun _ _ _ => of_legal _ rfl rfl (by decide : [.reg, .word, .reg] ∈ Mnemonic.legalForms .sub)

theorem EncodingShape.subRRW : ∀ (dst x : Reg) (y : Word), EncodingShape.Statement (.subRRW dst x y) :=
  fun _ _ _ => of_legal _ rfl rfl (by decide : [.reg, .reg, .word] ∈ Mnemonic.legalForms .sub)

theorem EncodingShape.subRWW : ∀ (dst : Reg) (x y : Word), EncodingShape.Statement (.subRWW dst x y) :=
  fun _ _ _ => of_legal _ rfl rfl (by decide : [.reg, .word, .word] ∈ Mnemonic.legalForms .sub)

theorem EncodingShape.mulRRR : ∀ (dst x y : Reg), EncodingShape.Statement (.mulRRR dst x y) :=
  fun _ _ _ => of_legal _ rfl rfl (by decide : [.reg, .reg, .reg] ∈ Mnemonic.legalForms .mul)

theorem EncodingShape.mulRWR : ∀ (dst : Reg) (x : Word) (y : Reg), EncodingShape.Statement (.mulRWR dst x y) :=
  fun _ _ _ => of_legal _ rfl rfl (by decide : [.reg, .word, .reg] ∈ Mnemonic.legalForms .mul)

theorem EncodingShape.mulRRW : ∀ (dst x : Reg) (y : Word), EncodingShape.Statement (.mulRRW dst x y) :=
  fun _ _ _ => of_legal _ rfl rfl (by decide : [.reg, .reg, .word] ∈ Mnemonic.legalForms .mul)

theorem EncodingShape.mulRWW : ∀ (dst : Reg) (x y : Word), EncodingShape.Statement (.mulRWW dst x y) :=
  fun _ _ _ => of_legal _ rfl rfl (by decide : [.reg, .word, .word] ∈ Mnemonic.legalForms .mul)

theorem EncodingShape.divRRR : ∀ (dst x y : Reg), EncodingShape.Statement (.divRRR dst x y) :=
  fun _ _ _ => of_legal _ rfl rfl (by decide : [.reg, .reg, .reg] ∈ Mnemonic.legalForms .div)

theorem EncodingShape.divRWR : ∀ (dst : Reg) (x : Word) (y : Reg), EncodingShape.Statement (.divRWR dst x y) :=
  fun _ _ _ => of_legal _ rfl rfl (by decide : [.reg, .word, .reg] ∈ Mnemonic.legalForms .div)

theorem EncodingShape.divRRW : ∀ (dst x : Reg) (y : Word), EncodingShape.Statement (.divRRW dst x y) :=
  fun _ _ _ => of_legal _ rfl rfl (by decide : [.reg, .reg, .word] ∈ Mnemonic.legalForms .div)

theorem EncodingShape.divRWW : ∀ (dst : Reg) (x y : Word), EncodingShape.Statement (.divRWW dst x y) :=
  fun _ _ _ => of_legal _ rfl rfl (by decide : [.reg, .word, .word] ∈ Mnemonic.legalForms .div)

theorem EncodingShape.modRRR : ∀ (dst x y : Reg), EncodingShape.Statement (.modRRR dst x y) :=
  fun _ _ _ => of_legal _ rfl rfl (by decide : [.reg, .reg, .reg] ∈ Mnemonic.legalForms .mod)

theorem EncodingShape.modRWR : ∀ (dst : Reg) (x : Word) (y : Reg), EncodingShape.Statement (.modRWR dst x y) :=
  fun _ _ _ => of_legal _ rfl rfl (by decide : [.reg, .word, .reg] ∈ Mnemonic.legalForms .mod)

theorem EncodingShape.modRRW : ∀ (dst x : Reg) (y : Word), EncodingShape.Statement (.modRRW dst x y) :=
  fun _ _ _ => of_legal _ rfl rfl (by decide : [.reg, .reg, .word] ∈ Mnemonic.legalForms .mod)

theorem EncodingShape.modRWW : ∀ (dst : Reg) (x y : Word), EncodingShape.Statement (.modRWW dst x y) :=
  fun _ _ _ => of_legal _ rfl rfl (by decide : [.reg, .word, .word] ∈ Mnemonic.legalForms .mod)

theorem EncodingShape.jump : ∀ (addr : Word), EncodingShape.Statement (.jump addr) :=
  fun _ => of_legal _ rfl rfl (by decide : [.word] ∈ Mnemonic.legalForms .jump)

theorem EncodingShape.jumpIfZero : ∀ (addr : Word), EncodingShape.Statement (.jumpIfZero addr) :=
  fun _ => of_legal _ rfl rfl (by decide : [.word] ∈ Mnemonic.legalForms .jumpIfZero)

theorem EncodingShape.jumpIfCarry : ∀ (addr : Word), EncodingShape.Statement (.jumpIfCarry addr) :=
  fun _ => of_legal _ rfl rfl (by decide : [.word] ∈ Mnemonic.legalForms .jumpIfCarry)

theorem EncodingShape.cmpRR : ∀ (x y : Reg), EncodingShape.Statement (.cmpRR x y) :=
  fun _ _ => of_legal _ rfl rfl (by decide : [.reg, .reg] ∈ Mnemonic.legalForms .cmp)

theorem EncodingShape.cmpWR : ∀ (x : Word) (y : Reg), EncodingShape.Statement (.cmpWR x y) :=
  fun _ _ => of_legal _ rfl rfl (by decide : [.word, .reg] ∈ Mnemonic.legalForms .cmp)

theorem EncodingShape.cmpRW : ∀ (x : Reg) (y : Word), EncodingShape.Statement (.cmpRW x y) :=
  fun _ _ => of_legal _ rfl rfl (by decide : [.reg, .word] ∈ Mnemonic.legalForms .cmp)

theorem EncodingShape.cmpWW : ∀ (x y : Word), EncodingShape.Statement (.cmpWW x y) :=
  fun _ _ => of_legal _ rfl rfl (by decide : [.word, .word] ∈ Mnemonic.legalForms .cmp)

theorem EncodingShape.call : ∀ (addr : Word), EncodingShape.Statement (.call addr) :=
  fun _ => of_legal _ rfl rfl (by decide : [.word] ∈ Mnemonic.legalForms .call)

theorem EncodingShape.ret : EncodingShape.Statement .ret :=
  of_legal _ rfl rfl (by decide : [] ∈ Mnemonic.legalForms .ret)

theorem EncodingShape.test : ∀ (r : Reg), EncodingShape.Statement (.test r) :=
  fun _ => of_legal _ rfl rfl (by decide : [.reg] ∈ Mnemonic.legalForms .test)

theorem EncodingShape.nop : EncodingShape.Statement .nop :=
  of_legal _ rfl rfl (by decide : [] ∈ Mnemonic.legalForms .nop)

theorem EncodingShape.halt : EncodingShape.Statement .halt :=
  of_legal _ rfl rfl (by decide : [] ∈ Mnemonic.legalForms .halt)

theorem EncodingShape.syscall : EncodingShape.Statement .syscall :=
  of_legal _ rfl rfl (by decide : [] ∈ Mnemonic.legalForms .syscall)

end Sys2Proof.Laws
end

