-- ==== Sys2Proof/Laws/Step.lean ====
section
/-! SUPPORT. What the functions above the shared operations can do, said once each: a step (rule R112), a run of steps, a
load (rules R5, R272), and the meaning of a mnemonic over all its forms at once (rules R180, R190, R200, R222). -/

namespace Sys2Proof.Machine

/-- All that a step can do (R112): nothing in a terminal state, else the fault of a failed decoding, else the execution of
the decoded instruction. -/
theorem step_cases {s t : State} (h : step s = .next t) :
    s.params.valid = true ∧
      ((s.engine.terminal = true ∧ t = s) ∨
       (s.engine.terminal = false ∧
        ((∃ e, decode s.fetchBytes = .error e ∧ t = s.start.raise (s.decodeFault e)) ∨
          ∃ i rest, decode s.fetchBytes = .ok (i, rest) ∧ exec i s.start = .next t))) := by
  have hb : s.start.fetchBytes = s.fetchBytes := rfl
  unfold step State.fetch at h
  rw [hb] at h
  split at h
  case isFalse => cases h
  case isTrue hv =>
    refine ⟨hv, ?_⟩
    split at h
    case isTrue ht => cases h; exact .inl ⟨ht, rfl⟩
    case isFalse ht =>
      refine .inr ⟨by simpa using ht, ?_⟩
      cases hd : decode s.fetchBytes with
      | error e => rw [hd] at h; cases h; exact .inl ⟨e, rfl, rfl⟩
      | ok p => rw [hd] at h; exact .inr ⟨p.1, p.2, rfl, h⟩

/-- A run of one more step. -/
theorem run_succ (m : Host.Core) (k : Nat) (s : m.State) :
    m.run (k + 1) s =
      match m.step s with
      | .next t => m.run k t
      | .fault f => .fault f
      | .refused r => .refused r := rfl

theorem Params.codeBaseOk_iff (p : Params) (len : Nat) :
    p.codeBaseOk len = true ↔ 69 ≤ p.codeBase ∧ p.codeBase + len ≤ p.stackLimit := by
  rw [Params.codeBaseOk, Bool.and_eq_true, decide_eq_true_eq, decide_eq_true_eq]
  exact Iff.rfl

/-- When a load is accepted, and what it gives (R5, R272). -/
theorem State.load_ok_iff (s t : State) (image : List Byte) :
    s.load image = .ok t ↔
      s.engine = .ready ∧ s.params.codeBase + image.length ≤ s.params.memSize ∧
        collision s.params s.params.codeBase image.length = none ∧
        69 ≤ s.params.codeBase ∧ s.params.codeBase + image.length ≤ s.params.stackLimit ∧ t = s.placeImage image := by
  unfold State.load
  simp only [State.inBounds_iff, Params.codeBaseOk_iff]
  constructor
  · intro h
    split at h
    case isFalse => cases h
    case isTrue he =>
      split at h
      case isFalse => cases h
      case isTrue hb =>
        split at h
        · cases h
        · rename_i hc
          split at h
          case isFalse => cases h
          case isTrue hk => cases h; exact ⟨he, hb, hc, hk.1, hk.2, rfl⟩
  · rintro ⟨he, hb, hc, h₁, h₂, rfl⟩
    rw [if_pos he, if_pos hb, hc]
    exact if_pos ⟨h₁, h₂⟩

/-- `SYSCALL` takes the host's answer (R222). -/
theorem exec_syscall (s : State) : exec .syscall s = s.answered s.hostAnswer := rfl

@[simp] theorem State.takeAnswer_value (s : State) (v : Word) :
    s.takeAnswer (.value v) = .ok ({ s with syscalls := s.syscalls + 1 }.setReg .acc v) := rfl

@[simp] theorem State.takeAnswer_noValue (s : State) :
    s.takeAnswer .noValue = .ok { s with syscalls := s.syscalls + 1 } := rfl

@[simp] theorem State.takeAnswer_fail (s : State) : s.takeAnswer .fail = .error (.syscallFault (s.reg .acc)) := rfl

theorem exec_mov (s : State) (r : Reg) (src : Operand) :
    exec (.mov r src) s = s.advance (Instr.mov r src).toStmt.form (s.move r src) := by cases src <;> rfl

theorem exec_add (s : State) (dst : Reg) (x y : Operand) :
    exec (.add dst x y) s = s.advance (Instr.add dst x y).toStmt.form (s.addTo dst (s.val x) (s.val y)) := by
  cases x <;> cases y <;> rfl

theorem exec_sub (s : State) (dst : Reg) (x y : Operand) :
    exec (.sub dst x y) s = s.advance (Instr.sub dst x y).toStmt.form (s.subTo dst (s.val x) (s.val y)) := by
  cases x <;> cases y <;> rfl

theorem exec_mul (s : State) (dst : Reg) (x y : Operand) :
    exec (.mul dst x y) s = s.advance (Instr.mul dst x y).toStmt.form (s.mulTo dst (s.val x) (s.val y)) := by
  cases x <;> cases y <;> rfl

theorem exec_div (s : State) (dst : Reg) (x y : Operand) :
    exec (.div dst x y) s = s.advance (Instr.div dst x y).toStmt.form (s.divTo dst (s.val x) (s.val y)) := by
  cases x <;> cases y <;> rfl

theorem exec_mod (s : State) (dst : Reg) (x y : Operand) :
    exec (.mod dst x y) s = s.advance (Instr.mod dst x y).toStmt.form (s.modTo dst (s.val x) (s.val y)) := by
  cases x <;> cases y <;> rfl

theorem exec_cmp (s : State) (x y : Operand) :
    exec (.cmp x y) s = s.advance (Instr.cmp x y).toStmt.form (s.compare (s.val x) (s.val y)) := by
  cases x <;> cases y <;> rfl

end Sys2Proof.Machine
end

