-- ==== Sys2Proof/Tests/Slice0.lean ====
section
/-! SUPPORT. The model's own tests: the well-formedness smoke tests, one decoding per row of the opcode table from bytes
written out from rule R105, one-step tests from spec/95_test_vectors.md (V and W numbers are its), and a concrete state
that meets the hypotheses of each obligation. -/

namespace Sys2Proof.Tests

open Sys2Proof.Machine

/-! ## Helpers -/

/-- The flags set in the order `ZF CF OVF SF PF`. -/
def setFlags (s : State) : List Bool → State
  | [z, c, o, g, p] => ((((s.setFlag .zf z).setFlag .cf c).setFlag .ovf o).setFlag .sf g).setFlag .pf p
  | _ => s

/-- Registers set one after another. -/
def setRegs (s : State) : List (Reg × Word) → State
  | [] => s
  | (r, v) :: rs => setRegs (s.setReg r v) rs

/-- Bytes set in memory. -/
def setBytes (s : State) (a : Nat) (bs : List Byte) : State := { s with mem := s.mem.writeBytes a bs }

/-- The start state of the vectors: reset with an image placed at 0x100, then registers and flags set. -/
def bench (image : List Byte) (regs : List (Reg × Word)) (flags : List Bool) : State :=
  setFlags (setRegs (State.reset.placeImage image) regs) flags

def noFlags : List Bool := [false, false, false, false, false]

def hasRegs (s : State) : List (Reg × Word) → Bool
  | [] => true
  | (r, v) :: rs => s.reg r == v && hasRegs s rs

def flagsOf (s : State) : List Bool := [s.flag .zf, s.flag .cf, s.flag .ovf, s.flag .sf, s.flag .pf]

/-- A property of the next state; false where there is none. -/
def nextHas (o : StepOutcome) (p : State → Bool) : Bool :=
  match o with
  | .next t => p t
  | .fault _ => false
  | .refused _ => false

theorem exists_next {o : StepOutcome} {p : State → Bool} (h : nextHas o p = true) : ∃ t, o = .next t ∧ p t = true := by
  cases o with
  | next t => exact ⟨t, rfl, h⟩
  | fault f => cases h
  | refused r => cases h

/-- One step leaves the engine `Running` with these registers and flags. -/
def runsTo (s : State) (regs : List (Reg × Word)) (flags : List Bool) : Bool :=
  nextHas (step s) (fun t => decide (t.engine = .running) && hasRegs t regs && flagsOf t == flags)

/-- One step leaves the engine `Faulted` with this cause, `pc` recorded, and memory as it was. -/
def faultsTo (s : State) (c : FaultCause) : Bool :=
  nextHas (step s) (fun t =>
    decide (t.engine = .faulted) && decide (t.record = some ⟨c, s.reg .pc⟩) && decide (t.mem = s.mem))

/-- The bytes decode to the instruction and nothing is left over. -/
def decodesTo (bs : List Byte) (i : Instr) : Bool :=
  match decode bs with
  | .ok (j, rest) => j == i && rest.isEmpty
  | .error _ => false

def rejects (bs : List Byte) (e : DecodeError) : Bool :=
  match decode bs with
  | .ok _ => false
  | .error d => d == e

/-- A machine small enough for its edges to be near: `STACK_BASE = 0x3FF`, `STACK_LIMIT = 0x3EF` (W4). -/
def smallParams : Params := { Params.default with memSize := 1024, stackSlots := 4 }

def small : State := State.ofParams smallParams

/-! ## Well-formedness -/

/-- R129: PUSH has one operand. -/
theorem test_push_without_operand_refused : Stmt.arityOk ⟨.push, []⟩ = false := by decide

/-- R129: RET has none. -/
theorem test_ret_with_operand_refused : Stmt.wellFormed ⟨.ret, [.reg .r0]⟩ = false := by decide

/-- R105, V143: `push #5` is a form with no meaning. -/
theorem test_push_word_form_refused : Stmt.formOk ⟨.push, [.word 5]⟩ = false := by decide

/-- R105, V144: `load r0, r1`. -/
theorem test_load_register_form_refused : Stmt.wellFormed ⟨.load, [.reg .r0, .reg .r1]⟩ = false := by decide

/-- R105, V148: `add` with a word as `dst`. -/
theorem test_add_word_destination_refused : Stmt.wellFormed ⟨.add, [.word 0, .reg .r1, .reg .r2]⟩ = false := by decide

/-- R105, V147: `mov` with a word as destination has the right count, yet no meaning. -/
theorem test_mov_word_destination_refused :
    Stmt.arityOk ⟨.mov, [.word 0, .reg .r0]⟩ = true ∧ Stmt.formOk ⟨.mov, [.word 0, .reg .r0]⟩ = false := by decide

theorem test_cmp_two_words_accepted : Instr.wellFormed (.cmpWW 1 2) = true := by decide

/-! ## Decoding: one row of the opcode table each -/

theorem test_decode_push : decodesTo [0x01, 0x0E] (.push .sp) = true := by decide

theorem test_decode_pop : decodesTo [0x02, 0x0F] (.pop .acc) = true := by decide

theorem test_decode_movRR : decodesTo [0x03, 0x01, 0x0D] (.movRR .r1 .pc) = true := by decide

theorem test_decode_movRW : decodesTo [0x43, 0x0D, 0x00, 0x05, 0x00, 0x00] (.movRW .pc 0x500) = true := by decide

theorem test_decode_load : decodesTo [0x44, 0x03, 0x78, 0x56, 0x34, 0x12] (.load .r3 0x12345678) = true := by decide

theorem test_decode_store : decodesTo [0x45, 0x0C, 0xFB, 0xFB, 0x00, 0x00] (.store .r12 0xFBFB) = true := by decide

theorem test_decode_addRRR : decodesTo [0x06, 0x01, 0x00, 0x02] (.addRRR .r1 .r0 .r2) = true := by decide

theorem test_decode_addRWR :
    decodesTo [0x46, 0x01, 0x0A, 0x00, 0x00, 0x80, 0x02] (.addRWR .r1 0x8000000A .r2) = true := by decide

theorem test_decode_addRRW :
    decodesTo [0x86, 0x01, 0x02, 0x0A, 0x00, 0x00, 0x80] (.addRRW .r1 .r2 0x8000000A) = true := by decide

theorem test_decode_addRWW :
    decodesTo [0xC6, 0x01, 0xFE, 0xFF, 0xFF, 0xFF, 0x01, 0x02, 0x03, 0x04] (.addRWW .r1 0xFFFFFFFE 0x04030201) = true
      := by decide

theorem test_decode_subRRR : decodesTo [0x07, 0x01, 0x00, 0x02] (.subRRR .r1 .r0 .r2) = true := by decide

theorem test_decode_subRWR :
    decodesTo [0x47, 0x01, 0x0A, 0x00, 0x00, 0x80, 0x02] (.subRWR .r1 0x8000000A .r2) = true := by decide

theorem test_decode_subRRW :
    decodesTo [0x87, 0x01, 0x02, 0x0A, 0x00, 0x00, 0x80] (.subRRW .r1 .r2 0x8000000A) = true := by decide

theorem test_decode_subRWW :
    decodesTo [0xC7, 0x01, 0xFE, 0xFF, 0xFF, 0xFF, 0x01, 0x02, 0x03, 0x04] (.subRWW .r1 0xFFFFFFFE 0x04030201) = true
      := by decide

theorem test_decode_mulRRR : decodesTo [0x08, 0x01, 0x00, 0x02] (.mulRRR .r1 .r0 .r2) = true := by decide

theorem test_decode_mulRWR :
    decodesTo [0x48, 0x01, 0x0A, 0x00, 0x00, 0x80, 0x02] (.mulRWR .r1 0x8000000A .r2) = true := by decide

theorem test_decode_mulRRW :
    decodesTo [0x88, 0x01, 0x02, 0x0A, 0x00, 0x00, 0x80] (.mulRRW .r1 .r2 0x8000000A) = true := by decide

theorem test_decode_mulRWW :
    decodesTo [0xC8, 0x01, 0xFE, 0xFF, 0xFF, 0xFF, 0x01, 0x02, 0x03, 0x04] (.mulRWW .r1 0xFFFFFFFE 0x04030201) = true
      := by decide

theorem test_decode_divRRR : decodesTo [0x09, 0x01, 0x00, 0x02] (.divRRR .r1 .r0 .r2) = true := by decide

theorem test_decode_divRWR :
    decodesTo [0x49, 0x01, 0x0A, 0x00, 0x00, 0x80, 0x02] (.divRWR .r1 0x8000000A .r2) = true := by decide

theorem test_decode_divRRW :
    decodesTo [0x89, 0x01, 0x02, 0x0A, 0x00, 0x00, 0x80] (.divRRW .r1 .r2 0x8000000A) = true := by decide

theorem test_decode_divRWW :
    decodesTo [0xC9, 0x01, 0xFE, 0xFF, 0xFF, 0xFF, 0x01, 0x02, 0x03, 0x04] (.divRWW .r1 0xFFFFFFFE 0x04030201) = true
      := by decide

theorem test_decode_modRRR : decodesTo [0x0A, 0x01, 0x00, 0x02] (.modRRR .r1 .r0 .r2) = true := by decide

theorem test_decode_modRWR :
    decodesTo [0x4A, 0x01, 0x0A, 0x00, 0x00, 0x80, 0x02] (.modRWR .r1 0x8000000A .r2) = true := by decide

theorem test_decode_modRRW :
    decodesTo [0x8A, 0x01, 0x02, 0x0A, 0x00, 0x00, 0x80] (.modRRW .r1 .r2 0x8000000A) = true := by decide

theorem test_decode_modRWW :
    decodesTo [0xCA, 0x01, 0xFE, 0xFF, 0xFF, 0xFF, 0x01, 0x02, 0x03, 0x04] (.modRWW .r1 0xFFFFFFFE 0x04030201) = true
      := by decide

theorem test_decode_jump : decodesTo [0x2B, 0x78, 0x56, 0x34, 0x12] (.jump 0x12345678) = true := by decide

theorem test_decode_jumpIfZero : decodesTo [0x2C, 0x20, 0x01, 0x00, 0x00] (.jumpIfZero 0x120) = true := by decide

theorem test_decode_jumpIfCarry : decodesTo [0x2D, 0x20, 0x01, 0x00, 0x00] (.jumpIfCarry 0x120) = true := by decide

theorem test_decode_cmpRR : decodesTo [0x0E, 0x01, 0x02] (.cmpRR .r1 .r2) = true := by decide

theorem test_decode_cmpWR : decodesTo [0x2E, 0x05, 0x00, 0x00, 0x00, 0x03] (.cmpWR 5 .r3) = true := by decide

theorem test_decode_cmpRW : decodesTo [0x4E, 0x03, 0x0A, 0x00, 0x00, 0x00] (.cmpRW .r3 10) = true := by decide

theorem test_decode_cmpWW :
    decodesTo [0x6E, 0xFF, 0xFF, 0xFF, 0x7F, 0x00, 0x00, 0x00, 0x80] (.cmpWW 0x7FFFFFFF 0x80000000) = true := by decide

theorem test_decode_call : decodesTo [0x2F, 0x20, 0x01, 0x00, 0x00] (.call 0x120) = true := by decide

theorem test_decode_ret : decodesTo [0x10] (.ret) = true := by decide

theorem test_decode_test : decodesTo [0x11, 0x0D] (.test .pc) = true := by decide

theorem test_decode_nop : decodesTo [0x12] (.nop) = true := by decide

theorem test_decode_halt : decodesTo [0x13] (.halt) = true := by decide

theorem test_decode_syscall : decodesTo [0x14] (.syscall) = true := by decide

/-- V149, V150, V151: a kind bit beyond the arity. -/
theorem test_decode_kind_bit_beyond_arity_rejected :
    rejects [0x30] (.illegalInstruction 0x30) = true ∧ rejects [0x8E, 0, 0] (.illegalInstruction 0x8E) = true := by
      decide

/-- V155: the third register byte is bad. -/
theorem test_decode_bad_register_byte_rejected :
    rejects [0x06, 0x01, 0x02, 0x10] (.invalidName 0x10) = true := by decide

/-- R112: every block is read before a register byte is checked. -/
theorem test_decode_reads_blocks_before_names : rejects [0x43, 0x10, 0, 0, 0] (.truncated 2 4) = true := by decide

/-- The words numbered as the opcode table numbers them: byte 0 is bits 7 to 0, and bits from `nbits` on are zero. -/
theorem test_decodeTableWord_short_word : decodeTableWord 8 0x43 = some (.movRW .r0 0) := by decide

/-! ## One step -/

/-- V1. -/
theorem test_step_push :
    runsTo (bench [0x01, 0x00] [(.r0, 0x11223344)] noFlags) [(.sp, 0xfffb), (.pc, 0x102)] noFlags = true := by decide

/-- V21. -/
theorem test_step_movRR :
    runsTo (bench [0x03, 0x01, 0x00] [(.r0, 0xcafebabe)] noFlags) [(.r1, 0xcafebabe), (.r0, 0xcafebabe), (.pc,
      0x103)] noFlags = true := by decide

/-- V23. -/
theorem test_step_movRW_pc :
    runsTo (bench [0x43, 0x0D, 0x00, 0x05, 0x00, 0x00] [] noFlags) [(.pc, 0x106)] noFlags = true := by decide

/-- V28. -/
theorem test_step_load :
    runsTo (bench [0x44, 0x02, 0x01, 0x00, 0x00, 0x00] [(.r0, 0xaabbccdd), (.r1, 0x11223344)] noFlags) [(.r2,
      0x44aabbcc)] noFlags = true := by decide

/-- V32. -/
theorem test_step_load_flags :
    runsTo (bench [0x44, 0x04, 0x40, 0x00, 0x00, 0x00] [] [true, false, true, false, false]) [(.r4, 0x10001)] [true,
      false, true, false, false] = true := by decide

/-- V55. -/
theorem test_step_addRRR :
    runsTo (bench [0x06, 0x01, 0x00, 0x02] [(.r0, 0xfffffffe), (.r2, 1)] noFlags) [(.r1, 0xffffffff)] [false, false,
      false, true, true] = true := by decide

/-- V56. -/
theorem test_step_addRRR_same :
    runsTo (bench [0x06, 0x00, 0x00, 0x00] [(.r0, 0x40000000)] noFlags) [(.r0, 0x80000000)] [false, false, true,
      true, true] = true := by decide

/-- V54. -/
theorem test_step_addRWR :
    runsTo (bench [0x46, 0x01, 0x0A, 0x00, 0x00, 0x00, 0x00] [(.r0, 5)] noFlags) [(.r1, 0xf), (.r0, 5), (.pc, 0x107)]
      [false, false, false, false, true] = true := by decide

/-- V53. -/
theorem test_step_addRRW :
    runsTo (bench [0x86, 0x01, 0x00, 0x0A, 0x00, 0x00, 0x00] [(.r0, 5)] noFlags) [(.r1, 0xf), (.r0, 5), (.pc, 0x107)]
      [false, false, false, false, true] = true := by decide

/-- V84. -/
theorem test_step_addRWW_pc :
    runsTo (bench [0xC6, 0x0D, 0x00, 0x05, 0x00, 0x00, 0x00, 0x00, 0x00, 0x00] [] noFlags) [(.pc, 0x10a)] [false,
      false, false, false, true] = true := by decide

/-- V52. -/
theorem test_step_addRWW :
    runsTo (bench [0xC6, 0x01, 0x00, 0x00, 0x00, 0x80, 0x00, 0x00, 0x00, 0x80] [] noFlags) [(.r1, 0)] [true, true,
      true, false, true] = true := by decide

/-- V66. -/
theorem test_step_subRRR :
    runsTo (bench [0x07, 0x01, 0x01, 0x01] [(.r1, 0x1234)] noFlags) [(.r1, 0)] [true, false, false, false, true] =
      true := by decide

/-- R193 by hand: 10 - 3 = 7, low byte of odd parity. -/
theorem test_step_subRWR :
    runsTo (bench [0x47, 0x01, 0x0A, 0x00, 0x00, 0x00, 0x02] [(.r2, 3)] [true, true, true, true, false]) [(.r1, 7),
      (.r2, 3)] noFlags = true := by decide

/-- V60. -/
theorem test_step_subRRW :
    runsTo (bench [0x87, 0x01, 0x00, 0x07, 0x00, 0x00, 0x00] [(.r0, 5)] noFlags) [(.r1, 0xfffffffe)] [false, true,
      false, true, false] = true := by decide

/-- V64. -/
theorem test_step_subRWW :
    runsTo (bench [0xC7, 0x01, 0xFF, 0xFF, 0xFF, 0x7F, 0xFF, 0xFF, 0xFF, 0xFF] [] noFlags) [(.r1, 0x80000000)]
      [false, true, true, true, true] = true := by decide

/-- V71. -/
theorem test_step_mulRRR :
    runsTo (bench [0x08, 0x01, 0x00, 0x00] [(.r0, 0)] noFlags) [(.r1, 0)] [true, false, false, false, false] = true
      := by decide

/-- R194 by hand: 0x80000000 times 3 is 0x80000000 mod 2^32. -/
theorem test_step_mulRWR :
    runsTo (bench [0x48, 0x01, 0x00, 0x00, 0x00, 0x80, 0x02] [(.r2, 3)] [true, true, true, false, true]) [(.r1,
      0x80000000)] [false, true, true, true, true] = true := by decide

/-- V67. -/
theorem test_step_mulRRW :
    runsTo (bench [0x88, 0x01, 0x00, 0x07, 0x00, 0x00, 0x00] [(.r0, 6)] noFlags) [(.r1, 0x2a)] noFlags = true := by
      decide

/-- V68. -/
theorem test_step_mulRWW :
    runsTo (bench [0xC8, 0x01, 0x00, 0x00, 0x01, 0x00, 0x00, 0x00, 0x01, 0x00] [] [false, true, true, false, true])
      [(.r1, 0)] [true, true, true, false, true] = true := by decide

/-- R195 by hand: 17 div 5 is 3. -/
theorem test_step_divRRR :
    runsTo (bench [0x09, 0x01, 0x00, 0x02] [(.r0, 0x11), (.r2, 5)] noFlags) [(.r1, 3), (.r0, 0x11), (.r2, 5)] noFlags
      = true := by decide

/-- R195 by hand: 17 div 5 is 3. -/
theorem test_step_divRWR :
    runsTo (bench [0x49, 0x01, 0x11, 0x00, 0x00, 0x00, 0x02] [(.r2, 5)] [true, true, false, true, true]) [(.r1, 3)]
      [false, true, false, false, true] = true := by decide

/-- V72. -/
theorem test_step_divRRW :
    runsTo (bench [0x89, 0x01, 0x00, 0x05, 0x00, 0x00, 0x00] [(.r0, 0x11)] noFlags) [(.r1, 3)] noFlags = true := by
      decide

/-- V73. -/
theorem test_step_divRWW :
    runsTo (bench [0xC9, 0x01, 0xFF, 0xFF, 0xFF, 0xFF, 0x02, 0x00, 0x00, 0x00] [] [false, true, false, true, false])
      [(.r1, 0x7fffffff)] [false, true, false, false, false] = true := by decide

/-- R196 by hand: 17 mod 5 is 2. -/
theorem test_step_modRRR :
    runsTo (bench [0x0A, 0x01, 0x00, 0x02] [(.r0, 0x11), (.r2, 5)] noFlags) [(.r1, 2)] noFlags = true := by decide

/-- R196 by hand: 17 mod 5 is 2. -/
theorem test_step_modRWR :
    runsTo (bench [0x4A, 0x01, 0x11, 0x00, 0x00, 0x00, 0x02] [(.r2, 5)] [true, true, false, true, true]) [(.r1, 2)]
      [false, true, false, false, true] = true := by decide

/-- V78. -/
theorem test_step_modRRW :
    runsTo (bench [0x8A, 0x01, 0x00, 0x05, 0x00, 0x00, 0x00] [(.r0, 0x11)] noFlags) [(.r1, 2)] noFlags = true := by
      decide

/-- V80. -/
theorem test_step_modRWW :
    runsTo (bench [0xCA, 0x01, 0xFF, 0xFF, 0xFF, 0xFF, 0x00, 0x00, 0x00, 0x80] [] noFlags) [(.r1, 0x7fffffff)]
      noFlags = true := by decide

/-- V111. -/
theorem test_step_jump :
    runsTo (bench [0x2B, 0x78, 0x56, 0x34, 0x12] [] noFlags) [(.pc, 0x12345678), (.sp, 0xffff)] noFlags = true := by
      decide

/-- V112. -/
theorem test_step_jumpIfZero_taken :
    runsTo (bench [0x2C, 0x20, 0x01, 0x00, 0x00] [] [true, false, false, false, false]) [(.pc, 0x120)] [true, false,
      false, false, false] = true := by decide

/-- V113. -/
theorem test_step_jumpIfZero_untaken :
    runsTo (bench [0x2C, 0x20, 0x01, 0x00, 0x00] [] [false, true, false, true, false]) [(.pc, 0x105)] [false, true,
      false, true, false] = true := by decide

/-- V114. -/
theorem test_step_jumpIfCarry_taken :
    runsTo (bench [0x2D, 0x20, 0x01, 0x00, 0x00] [] [false, true, false, false, false]) [(.pc, 0x120)] [false, true,
      false, false, false] = true := by decide

/-- V115. -/
theorem test_step_jumpIfCarry_untaken :
    runsTo (bench [0x2D, 0x20, 0x01, 0x00, 0x00] [] [true, false, false, false, false]) [(.pc, 0x105)] [true, false,
      false, false, false] = true := by decide

/-- V95. -/
theorem test_step_cmpRR :
    runsTo (bench [0x0E, 0x00, 0x00] [(.r0, 0xffffffff)] [false, true, true, true, false]) [(.r0, 0xffffffff), (.pc,
      0x103)] [true, false, false, false, true] = true := by decide

/-- V96. -/
theorem test_step_cmpWR :
    runsTo (bench [0x2E, 0x05, 0x00, 0x00, 0x00, 0x00] [(.r0, 9)] noFlags) [(.r0, 9), (.pc, 0x106)] [false, true,
      false, true, true] = true := by decide

/-- V92. -/
theorem test_step_cmpRW :
    runsTo (bench [0x4E, 0x00, 0x0A, 0x00, 0x00, 0x00] [(.r0, 7)] noFlags) [(.r0, 7), (.pc, 0x106)] [false, true,
      false, true, false] = true := by decide

/-- V97. -/
theorem test_step_cmpWW :
    runsTo (bench [0x6E, 0xFF, 0xFF, 0xFF, 0x7F, 0x00, 0x00, 0x00, 0x80] [] noFlags) [(.pc, 0x109)] [false, true,
      true, true, true] = true := by decide

/-- V116. -/
theorem test_step_call :
    runsTo (bench [0x2F, 0x20, 0x01, 0x00, 0x00] [] noFlags) [(.pc, 0x120), (.sp, 0xfffb)] noFlags = true := by decide

/-- V99. -/
theorem test_step_test :
    runsTo (bench [0x11, 0x02] [(.r2, 0)] [false, true, true, false, true]) [(.r2, 0), (.pc, 0x102)] [true, true,
      true, false, true] = true := by decide

/-- V101. -/
theorem test_step_test_pc : runsTo (bench [0x11, 0x0D] [] noFlags) [(.pc, 0x102)] noFlags = true := by decide

/-- V130. -/
theorem test_step_nop :
    runsTo (bench [0x12] [] [true, false, false, false, true]) [(.pc, 0x101), (.sp, 0xffff)] [true, false, false,
      false, true] = true := by decide

/-- V6: the decremented `sp` is stored. -/
theorem test_step_push_sp :
    nextHas (step (bench [0x01, 0x0E] [] noFlags)) (fun t => t.mem.readBytes 0xFFFB 4 == [0xFB, 0xFF, 0, 0]) = true
      := by decide

/-- V8: the loaded 0x2000 and then 4 more. -/
theorem test_step_pop_sp :
    runsTo (setBytes (bench [0x02, 0x0E] [(.sp, 0xFFF7)] noFlags) 0xFFF7 [0, 0x20, 0, 0]) [(.sp, 0x2004), (.pc,
      0x102)] noFlags = true := by decide

/-- V3. -/
theorem test_step_pop_empty : faultsTo (bench [0x02, 0x01] [] noFlags) (.stackUnderflow 0xFFFF) = true := by decide

/-- V34: the lowest legal address. -/
theorem test_step_store :
    nextHas (step (bench [0x45, 0, 69, 0, 0, 0] [(.r0, 0x01020304)] noFlags)) (fun t => t.mem.readBytes 68 5 == [0,
      4, 3, 2, 1] && t.reg .pc == 0x106) = true := by decide

/-- V36: registers are named before flags. -/
theorem test_step_store_collision :
    faultsTo (bench [0x45, 0, 62, 0, 0, 0] [(.r0, 0xFFFFFFFF)] noFlags) (.regionCollision .registers 62) = true := by
      decide

/-- V76. -/
theorem test_step_div_by_zero :
    faultsTo (bench [0x89, 1, 0, 0, 0, 0, 0] [(.r0, 17), (.r1, 0x99)] [true, true, false, false, false])
      .divisionByZero = true := by decide

/-- V83. -/
theorem test_step_mod_by_zero :
    faultsTo (bench [0xCA, 1, 5, 0, 0, 0, 0, 0, 0, 0] [(.r1, 0x99)] noFlags) .divisionByZero = true := by decide

/-- V116: the return address is that of the next instruction. -/
theorem test_step_call_return_address :
    nextHas (step (bench [0x2F, 0x20, 1, 0, 0] [] noFlags)) (fun t => t.mem.readBytes 0xFFFB 4 == [0x05, 0x01, 0, 0])
      = true := by decide

/-- V118. -/
theorem test_step_ret :
    runsTo (setBytes (bench [0x10] [(.sp, 0xFFFB)] noFlags) 0xFFFB [0x05, 0x01, 0, 0]) [(.pc, 0x105), (.sp, 0xFFFF)]
      noFlags = true := by decide

/-- V131. -/
theorem test_step_halt :
    nextHas (step (bench [0x13] [] noFlags)) (fun t => decide (t.engine = .halted) && t.reg .pc == 0x101) = true :=
      by decide

/-- The host of section 2.6 of the vectors, as far as they call it. -/
def vectorHost : List SyscallRow := [⟨1, 2, 3, 0, 0, .value 5⟩, ⟨2, 2, 0, 0, 0, .noValue⟩]

/-- A SYSCALL at 0x100 asked of that host. -/
def withHost (acc r0 r1 : Word) : State :=
  let s := bench [0x14] [(.acc, acc), (.r0, r0), (.r1, r1)] noFlags
  { s with params := { s.params with handler := .catalogue vectorHost } }

/-- V132. -/
theorem test_step_syscall_value :
    runsTo (withHost 1 2 3) [(.acc, 5), (.r0, 2), (.r1, 3), (.pc, 0x101)] noFlags = true := by decide

/-- V134. -/
theorem test_step_syscall_fail : faultsTo (withHost 9 0 0) (.syscallFault 9) = true := by decide

/-- V162, V163: an operand block beyond memory, with its own address and size. -/
theorem test_step_fetch_at_edge :
    faultsTo (setRegs (setBytes State.reset 0xFFFF [0x43]) [(.pc, 0xFFFF)]) (.outOfBounds 0x10000 1) = true ∧
      faultsTo (setRegs (setBytes State.reset 0xFFFE [0x43, 0]) [(.pc, 0xFFFE)]) (.outOfBounds 0x10000 4) = true :=
      by decide

/-- V160: nothing loaded. -/
theorem test_step_from_reset : faultsTo State.reset (.illegalInstruction 0) = true := by decide

/-- A table word placed for fetch is the first instruction to run. -/
theorem test_withFetchWord :
    runsTo (State.reset.withFetchWord 56 0x0000000A000186) [(.r1, 10), (.pc, 0x107)] [false, false, false, false,
      true] = true := by decide

/-! ## Reset, load and the assembler -/

/-- R5: the smallest machine with one slot has 74 bytes; 73 are refused, and so is a stack of no slots. -/
theorem test_construct_boundaries :
    (construct { Params.default with memSize := 74, stackSlots := 1 }).isSome = true ∧ (construct { Params.default
      with memSize := 73, stackSlots := 1 }).isSome = false ∧ (construct { Params.default with stackSlots := 0
      }).isSome = false ∧ (construct { Params.default with memSize := 2 ^ 32 }).isSome = false := by decide

/-- A load that is accepted or refused (R272). -/
def loadAnswer (s : State) (image : List Byte) : Option LoadError :=
  match s.load image with
  | .ok _ => none
  | .error e => some e

/-- R272: a load into the flags is refused; into a halted engine too; and one that does not end inside memory. -/
theorem test_load_refused :
    loadAnswer (State.ofParams { smallParams with codeBase := 68 }) [0x13] = some (.regionCollision .flags) ∧
      loadAnswer { small with engine := .halted } [0x13] = some .notReady ∧
      loadAnswer (State.ofParams { smallParams with codeBase := 1024 }) [0x13] = some .outOfMemory := by decide

/-- R139, R5, U11 (log entry 15): an empty image is refused at 0, 64 and `MEM_SIZE`, and accepted at both ends of the
range of `CODE_BASE`. -/
theorem test_load_empty_image :
    loadAnswer (State.ofParams { smallParams with codeBase := 0 }) [] = some .codeBase ∧
      loadAnswer (State.ofParams { smallParams with codeBase := 64 }) [] = some .codeBase ∧
      loadAnswer (State.ofParams { smallParams with codeBase := 1024 }) [] = some .codeBase ∧
      loadAnswer (State.ofParams { smallParams with codeBase := 69 }) [] = none ∧
      loadAnswer (State.ofParams { smallParams with codeBase := 0x3EF }) [] = none := by decide

def assemblesTo (lines : List String) (bytes : List Byte) : Bool :=
  match assemble (lines.map String.toList) 0x100 with
  | .ok bs => bs == bytes
  | .error _ => false

def assemblyFails (lines : List String) (e : AsmError) : Bool :=
  match assemble (lines.map String.toList) 0x100 with
  | .ok _ => false
  | .error d => d == e

/-- W3. -/
theorem test_assemble_program :
    assemblesTo [".text", "    mov r0, #5", "    add r1, r0, #10", "    halt"] [0x43, 0, 5, 0, 0, 0, 0x86, 1, 0, 10,
      0, 0, 0, 0x13] = true := by decide

/-- W7, its first part: a label after its use. -/
theorem test_assemble_label :
    assemblesTo [".text", "call sub", "halt", "sub:", "ret"] [0x2F, 0x06, 0x01, 0, 0, 0x13, 0x10] = true := by decide

/-- W6. -/
theorem test_assemble_unknown_opcode :
    assemblyFails [".text", "mov r0, #1", "FOO r0", "halt"] (.unknownOpcode "FOO".toList 3 "FOO r0".toList) = true :=
      by decide

/-! ## Concrete states that meet the hypotheses of the obligations -/

/-- The parameters with given sizes. -/
def sized (memSize stackSlots : Nat) : Params := { Params.default with memSize := memSize, stackSlots := stackSlots }

/-- The small machine about to run an image at 0x100. -/
def smallBench (image : List Byte) (regs : List (Reg × Word)) : State := setRegs (small.placeImage image) regs

/-- An outcome whose state differs from the one before at an address. -/
def changes (o : StepOutcome) (s : State) (a : Nat) : Bool := nextHas o (fun t => t.byte a != s.byte a)

theorem test_witness_ConstructionGivesResetValues :
    (1 ≤ (sized 74 1).stackSlots ∧ 70 + 4 * (sized 74 1).stackSlots ≤ (sized 74 1).memSize ∧
      (sized 74 1).memSize ≤ 2 ^ 32 - 1) ∧
    1 ≤ (sized (2 ^ 32 - 1) 256).stackSlots ∧ 70 + 4 * (sized (2 ^ 32 - 1) 256).stackSlots ≤
      (sized (2 ^ 32 - 1) 256).memSize ∧ (sized (2 ^ 32 - 1) 256).memSize ≤ 2 ^ 32 - 1 := by decide

theorem test_witness_ConstructedStatesMeetInvariant : ∃ s, construct smallParams = some s := ⟨_, rfl⟩

theorem test_witness_EveryStepKeepsInvariant :
    (smallBench [0x06, 1, 0, 2] [(.r0, 7)]).Inv ∧ ∃ t, step (smallBench [0x06, 1, 0, 2] [(.r0, 7)]) = .next t := by
  refine ⟨by unfold State.Inv; decide, ?_⟩
  obtain ⟨t, h, -⟩ := exists_next (o := step (smallBench [0x06, 1, 0, 2] [(.r0, 7)])) (p := fun _ => true) (by decide)
  exact ⟨t, h⟩

/-- Two orders of writing the same bytes. -/
theorem test_witness_CanonicalMemoriesReadAlikeAreEqual :
    let m : Memory := (Memory.write [(70, 5)] 69 1).write 80 0
    let n : Memory := (Memory.write [] 69 1).write 70 5
    m.wf = true ∧ n.wf = true ∧ ∀ a, m.read a = n.read a :=
  ⟨by decide, by decide, fun _ => rfl⟩

theorem test_witness_DecodedBytesAreTheEncoding :
    decode [0x03, 0x01, 0x0F, 0xFF] = .ok (.movRR .r1 .acc, [0xFF]) := rfl

theorem test_witness_StepRunsDecodedInstruction :
    ∃ rest, Dispatching (smallBench [0x43, 0, 5, 0, 0, 0] []) ∧
      decode (smallBench [0x43, 0, 5, 0, 0, 0] []).fetchBytes = .ok (.movRW .r0 5, rest) :=
  ⟨_, by unfold Dispatching; decide, rfl⟩

/-- The last byte of memory is a whole instruction. -/
theorem test_witness_StepExecutesInstructionEncodedAtPc :
    let s := setRegs (setBytes small 0x3FF [0x13]) [(.pc, 0x3FF)]
    Dispatching s ∧ (s.reg .pc).toNat + (encode .halt).length ≤ s.params.memSize ∧
      ∀ k, k < (encode .halt).length → (encode .halt)[k]? = some (s.byte ((s.reg .pc).toNat + k)) := by
  unfold Dispatching; decide

/-- The first address beyond memory; the last address inside it, holding 0x00. -/
theorem test_witness_OpcodeFetchFaults :
    (Dispatching (setRegs small [(.pc, 0x400)]) ∧
      small.params.memSize ≤ ((setRegs small [(.pc, 0x400)]).reg .pc).toNat) ∧
    Dispatching (setRegs small [(.pc, 0x3FF)]) ∧
      ((setRegs small [(.pc, 0x3FF)]).reg .pc).toNat < small.params.memSize ∧
      (setRegs small [(.pc, 0x3FF)]).byte ((setRegs small [(.pc, 0x3FF)]).reg .pc).toNat ∉ legalOpcodes := by
  unfold Dispatching; decide

/-- V162: MOV at the last byte of memory. -/
theorem test_witness_OperandBlockBeyondMemoryFaults :
    let s := setRegs (setBytes small 0x3FF [0x43]) [(.pc, 0x3FF)]
    Dispatching s ∧ (s.reg .pc).toNat < s.params.memSize ∧
      decodeOpcode (s.byte (s.reg .pc).toNat) = some (.mov, [] ++ Kind.reg :: [.word]) ∧
      (s.reg .pc).toNat + 1 + blocksLength [] ≤ s.params.memSize ∧
      s.params.memSize < (s.reg .pc).toNat + 1 + blocksLength [] + Kind.reg.size := by
  unfold Dispatching; decide

/-- V153 at the very end of memory: the second register byte is bad, the first is not. -/
theorem test_witness_BadRegisterByteFaults :
    let s := setRegs (setBytes small 0x3FD [0x03, 0x0F, 0x10]) [(.pc, 0x3FD)]
    Dispatching s ∧ decodeOpcode (s.byte (s.reg .pc).toNat) = some (.mov, [.reg] ++ Kind.reg :: []) ∧
      (s.reg .pc).toNat + formLength ([.reg] ++ .reg :: []) ≤ s.params.memSize ∧
      (∀ f₁ f₂ : Form, [Kind.reg] = f₁ ++ .reg :: f₂ →
        (s.byte ((s.reg .pc).toNat + 1 + blocksLength f₁)).toNat ≤ 15) ∧
      15 < (s.byte ((s.reg .pc).toNat + 1 + blocksLength [.reg])).toNat := by
  refine ⟨by unfold Dispatching; decide, by decide, by decide, ?_, by decide⟩
  intro f₁ f₂ h
  cases f₁ with
  | nil => decide
  | cons k f₁ => simp at h

theorem test_witness_FaultsArePrecise :
    ∃ t, step small = .next t ∧ small.engine ≠ .faulted ∧ t.engine = .faulted := by
  obtain ⟨t, h, ht⟩ := exists_next (o := step small) (p := fun t => decide (t.engine = .faulted)) (by decide)
  exact ⟨t, h, by decide, of_decide_eq_true ht⟩

theorem test_witness_TerminalStatesAreInert :
    (small.params.valid = true ∧ ({ small with engine := .halted } : State).engine = .halted) ∧
      small.params.valid = true ∧ ({ small with engine := .faulted } : State).engine = .faulted := by decide

theorem test_witness_EngineStateTransitions :
    Dispatching (smallBench [0x12] []) ∧ ∃ t, step (smallBench [0x12] []) = .next t := by
  refine ⟨by unfold Dispatching; decide, ?_⟩
  obtain ⟨t, h, -⟩ := exists_next (o := step (smallBench [0x12] [])) (p := fun _ => true) (by decide)
  exact ⟨t, h⟩

theorem test_witness_OnlyHaltHalts :
    ∃ t, (smallBench [0x13] []).engine ≠ .halted ∧ step (smallBench [0x13] []) = .next t ∧ t.engine = .halted := by
  obtain ⟨t, h, ht⟩ := exists_next (o := step (smallBench [0x13] [])) (p := fun t => decide (t.engine = .halted))
    (by decide)
  exact ⟨t, by decide, h, of_decide_eq_true ht⟩

theorem test_witness_PcAdvancesByEncodedLength :
    ∃ t, small.engine ≠ .faulted ∧ ¬ transfersControl (.movRW .pc 5) ∧ exec (.movRW .pc 5) small = .next t ∧
      t.engine ≠ .faulted := by
  obtain ⟨t, h, ht⟩ := exists_next (o := exec (.movRW .pc 5) small) (p := fun t => decide (t.engine ≠ .faulted))
    (by decide)
  exact ⟨t, by decide, by unfold transfersControl; decide, h, of_decide_eq_true ht⟩

/-- One changed byte for each row: `acc`'s last byte, `PF`, the first and last bytes of general memory, and the last
byte of the stack region that a PUSH from a legal `sp` reaches. By a PUSH from a corrupt `sp`: one byte below
`STACK_LIMIT`. -/
theorem test_witness_RegionsHaveOnlyTheirWriters :
    small.params.valid = true ∧ changes (exec (.movRW .acc 0xFF000000) small) small 63 = true ∧
      changes (exec (.cmpWW 0 0) small) small 68 = true ∧
      changes (exec (.store .sp 69) small) small 69 = true ∧
      changes (exec (.store .sp 0x3EB) small) small 0x3EB = true ∧
      changes (exec (.push .sp) small) small 0x3FB = true ∧
      changes (exec (.push .sp) (setRegs small [(.sp, 0x3F0)])) (setRegs small [(.sp, 0x3F0)]) 0x3EC = true := by
  decide

/-- The smallest machine, `STACK_LIMIT = 69`, and `sp = 70` (log entry 10): PUSH and CALL write Region B, from `OVF`
at 66, three bytes below `STACK_LIMIT`, to `PF` at 68. -/
theorem test_witness_RegionsHaveOnlyTheirWriters_flags :
    let s := setRegs (State.ofParams (sized 74 1)) [(.sp, 70), (.r0, 0xFFFFFFFF), (.pc, 0xFFFFFFFF)]
    s.params.valid = true ∧ s.params.stackLimit = 69 ∧ changes (exec (.push .r0) s) s 66 = true ∧
      changes (exec (.push .r0) s) s 68 = true ∧ changes (exec (.call 0) s) s 66 = true := by decide

/-- The smallest `STACK_LIMIT` the statement speaks of. -/
theorem test_witness_FlagBytesStayBoolean :
    let s := (State.ofParams (sized 77 1))
    72 ≤ s.params.stackLimit ∧ FlagBytesBoolean s ∧ ∃ t, step s = .next t := by
  refine ⟨by decide, ?_, ?_⟩
  · intro f; cases f <;> decide
  · obtain ⟨t, h, -⟩ := exists_next (o := step (State.ofParams (sized 77 1))) (p := fun _ => true) (by decide)
    exact ⟨t, h⟩

/-- The full stack, `k = STACK_SLOTS`: a POP into another register. -/
theorem test_witness_StackPointerStaysInStackRegion :
    let s := setRegs small [(.sp, 0x3EF)]
    s.params.valid = true ∧ StackPointerOk s ∧ destination (.pop .r1) ≠ some .sp ∧
      ∃ t, exec (.pop .r1) s = .next t := by
  refine ⟨by decide, ⟨4, by decide, by decide⟩, by decide, ?_⟩
  obtain ⟨t, h, -⟩ := exists_next (o := exec (.pop .r1) (setRegs small [(.sp, 0x3EF)])) (p := fun _ => true) (by decide)
  exact ⟨t, h⟩

/-- Both ends of the range of `sp`. -/
theorem test_witness_PushStoresWordAtNewSp :
    small.params.valid = true ∧
    small.params.stackLimit < ((setRegs small [(.sp, 0x3F0)]).reg .sp).toNat ∧
      ((setRegs small [(.sp, 0x3F0)]).reg .sp).toNat ≤ small.params.memSize ∧
    small.params.stackLimit < ((setRegs small [(.sp, 0x400)]).reg .sp).toNat ∧
      ((setRegs small [(.sp, 0x400)]).reg .sp).toNat ≤ small.params.memSize := by decide

theorem test_witness_PushAndCallFaults :
    small.params.valid = true ∧ ((setRegs small [(.sp, 0x3EF)]).reg .sp).toNat ≤ small.params.stackLimit ∧
      small.params.memSize < ((setRegs small [(.sp, 0x401)]).reg .sp).toNat := by decide

/-- The highest `sp` that POP accepts, and the lowest. -/
theorem test_witness_PopLoadsWordAtSp :
    (((setRegs small [(.sp, 0x3FC)]).reg .sp).toNat < small.params.stackBase ∧
      ((setRegs small [(.sp, 0x3FC)]).reg .sp).toNat + 4 ≤ small.params.memSize) ∧
    ((setRegs small [(.sp, 0)]).reg .sp).toNat < small.params.stackBase ∧
      ((setRegs small [(.sp, 0)]).reg .sp).toNat + 4 ≤ small.params.memSize := by decide

/-- The empty stack; an `sp` one above the highest that POP accepts. -/
theorem test_witness_PopAndRetFaults :
    small.params.stackBase ≤ (small.reg .sp).toNat ∧
      ((setRegs small [(.sp, 0x3FD)]).reg .sp).toNat < small.params.stackBase ∧
      small.params.memSize < ((setRegs small [(.sp, 0x3FD)]).reg .sp).toNat + 4 := by decide

theorem test_witness_StackHoldsExactlyStackSlots : smallParams.valid = true ∧ 4 ≤ smallParams.stackSlots := by decide

/-- The last slot, and the first. -/
theorem test_witness_PushThenPopRestores :
    small.params.valid = true ∧ small.params.stackLimit < ((setRegs small [(.sp, 0x3F0)]).reg .sp).toNat ∧
      ((setRegs small [(.sp, 0x3F0)]).reg .sp).toNat ≤ small.params.stackBase ∧
      small.params.stackLimit < (small.reg .sp).toNat ∧ (small.reg .sp).toNat ≤ small.params.stackBase ∧
      Reg.r1 ≠ .sp ∧ Reg.r1 ≠ .pc := by decide

theorem test_witness_LoadReadsFourBytes : (0x3FC : Word).toNat + 4 ≤ small.params.memSize := by decide

theorem test_witness_LoadOutOfBoundsFaults :
    small.params.memSize < (0x3FD : Word).toNat + 4 ∧ small.params.memSize < (0xFFFFFFFF : Word).toNat + 4 := by decide

/-- The lowest and the highest address STORE accepts. -/
theorem test_witness_StoreWritesGeneralMemory :
    small.params.valid = true ∧ (69 ≤ (69 : Word).toNat ∧ (69 : Word).toNat + 4 ≤ small.params.stackLimit) ∧
      69 ≤ (0x3EB : Word).toNat ∧ (0x3EB : Word).toNat + 4 ≤ small.params.stackLimit := by decide

/-- Each fault at an end of its range: just beyond memory, registers, flags, stack. -/
theorem test_witness_StoreFaultsInOrder :
    small.params.memSize < (0x3FD : Word).toNat + 4 ∧
      ((63 : Word).toNat + 4 ≤ small.params.memSize ∧ (63 : Word).toNat ≤ 63) ∧
      ((68 : Word).toNat + 4 ≤ small.params.memSize ∧ 64 ≤ (68 : Word).toNat ∧ (68 : Word).toNat ≤ 68) ∧
      ((0x3EC : Word).toNat + 4 ≤ small.params.memSize ∧ 69 ≤ (0x3EC : Word).toNat ∧
        small.params.stackLimit < (0x3EC : Word).toNat + 4) := by decide

/-- The lowest and the highest address of the hypotheses; and for a STORE at 0x100, the word just after it, one byte
later, and one that begins inside the STORE itself and overlaps the next instruction, with a byte of it and a byte not
of it among those fetched next. -/
theorem test_witness_StoreIsSeenByNextFetch :
    let s := smallBench [] [(.r0, 0x11223344)]
    s.params.valid = true ∧ s.reg .pc + 6 = 0x106 ∧
      (69 ≤ (69 : Word).toNat ∧ (0x3EB : Word).toNat + 4 ≤ s.params.stackLimit) ∧
      nextHas (exec (.store .r0 0x103) s) (fun t => t.fetchBytes.take 2 == [0x11, 0]) = true ∧
      nextHas (exec (.store .r0 0x107) s) (fun t => t.fetchBytes.take 5 == [0, 0x44, 0x33, 0x22, 0x11]) = true ∧
      (InWord 0x103 0x106 ∧ ¬ InWord 0x103 0x107 ∧ ¬ InReg .pc 0x107) :=
  ⟨by decide, by decide, by decide, by decide, by decide, by unfold InWord InReg; decide⟩

theorem test_witness_DivWritesQuotient : (small.val (.word 1)).toNat ≠ 0 ∧ (small.val (.reg .sp)).toNat ≠ 0 := by decide

theorem test_witness_ModWritesRemainder : (small.val (.word 1)).toNat ≠ 0 ∧ (small.val (.reg .sp)).toNat ≠ 0 := by decide

theorem test_witness_ZeroDivisorFaults : (small.val (.word 0)).toNat = 0 ∧ (small.val (.reg .r0)).toNat = 0 := by decide

theorem test_witness_DivAndModRecomposeDividend :
    (small.val (.word 0xFFFFFFFF)).toNat ≠ 0 ∧ Reg.r1 ≠ .pc ∧ Reg.r2 ≠ .pc := by decide

theorem test_witness_ConditionalJumpsFollowTheirFlag :
    (setFlags small [true, true, false, false, false]).flag .zf = true ∧ small.flag .zf = false ∧
      (setFlags small [true, true, false, false, false]).flag .cf = true ∧ small.flag .cf = false := by decide

/-- The lowest and the highest `sp` from which CALL pushes. -/
theorem test_witness_CallPushesReturnAddress :
    small.params.valid = true ∧
    (small.params.stackLimit < ((setRegs small [(.sp, 0x3F0)]).reg .sp).toNat ∧
      ((setRegs small [(.sp, 0x3F0)]).reg .sp).toNat ≤ small.params.memSize) ∧
    small.params.stackLimit < ((setRegs small [(.sp, 0x400)]).reg .sp).toNat ∧
      ((setRegs small [(.sp, 0x400)]).reg .sp).toNat ≤ small.params.memSize := by decide

theorem test_witness_RetPopsIntoPc :
    ((setRegs small [(.sp, 0x3FC)]).reg .sp).toNat < small.params.stackBase ∧
      ((setRegs small [(.sp, 0x3FC)]).reg .sp).toNat + 4 ≤ small.params.memSize := by decide

theorem test_witness_CallThenRetReturns :
    small.params.valid = true ∧ small.params.stackLimit < (small.reg .sp).toNat ∧
      (small.reg .sp).toNat ≤ small.params.stackBase := by decide

/-- One state for each answer of the host; the second row serves its words and no row before it does; no row serves the
last. -/
theorem test_witness_SyscallWritesAnswerToAcc :
    (withHost 1 2 3).params.handler = .catalogue vectorHost ∧
      lookupAnswer ((withHost 1 2 3).reg .acc) ((withHost 1 2 3).reg .r0) ((withHost 1 2 3).reg .r1)
        ((withHost 1 2 3).reg .r2) ((withHost 1 2 3).reg .r3) vectorHost = .value 5 ∧
      lookupAnswer ((withHost 2 2 0).reg .acc) ((withHost 2 2 0).reg .r0) ((withHost 2 2 0).reg .r1)
        ((withHost 2 2 0).reg .r2) ((withHost 2 2 0).reg .r3) vectorHost = .noValue ∧
      lookupAnswer ((withHost 9 0 0).reg .acc) ((withHost 9 0 0).reg .r0) ((withHost 9 0 0).reg .r1)
        ((withHost 9 0 0).reg .r2) ((withHost 9 0 0).reg .r3) vectorHost = .fail ∧
      (vectorHost = [⟨1, 2, 3, 0, 0, .value 5⟩] ++ ⟨2, 2, 0, 0, 0, .noValue⟩ :: [] ∧
        Serves ⟨2, 2, 0, 0, 0, .noValue⟩ ((withHost 2 2 0).reg .acc) ((withHost 2 2 0).reg .r0)
          ((withHost 2 2 0).reg .r1) ((withHost 2 2 0).reg .r2) ((withHost 2 2 0).reg .r3) ∧
        ∀ q ∈ [(⟨1, 2, 3, 0, 0, .value 5⟩ : SyscallRow)], ¬ Serves q ((withHost 2 2 0).reg .acc)
          ((withHost 2 2 0).reg .r0) ((withHost 2 2 0).reg .r1) ((withHost 2 2 0).reg .r2) ((withHost 2 2 0).reg .r3)) ∧
      ∀ q ∈ vectorHost, ¬ Serves q ((withHost 9 0 0).reg .acc) ((withHost 9 0 0).reg .r0) ((withHost 9 0 0).reg .r1)
        ((withHost 9 0 0).reg .r2) ((withHost 9 0 0).reg .r3) := by unfold Serves; decide

/-- A state whose host is not known, and what it does with each of the three answers. -/
theorem test_witness_SyscallFollowsAnyHost :
    let s := setRegs (State.ofParams { smallParams with handler := .unknown }) [(.acc, 7)]
    s.params.handler = .unknown ∧
      nextHas (s.answered (.value 5)) (fun t => t.reg .acc == 5 && t.reg .pc == 1) = true ∧
      nextHas (s.answered .noValue) (fun t => t.reg .acc == 7 && t.reg .pc == 1) = true ∧
      nextHas (s.answered .fail) (fun t => decide (t.record = some ⟨.syscallFault 7, 0⟩)) = true := by decide

theorem test_witness_SyscallWithoutHandlerFaults : small.params.handler = .absent := rfl

/-- An image from the first byte of general memory to its last, and a state that refuses; then each refusal of a `Ready`
engine at an end of its range: one byte beyond memory, registers, flags, stack, and the two bounds on `CODE_BASE`. -/
theorem test_witness_LoadPlacesImageAtCodeBase :
    let s := fun n => State.ofParams { smallParams with codeBase := n }
    ((s 69).params.valid = true ∧ (s 69).engine = .ready ∧ 69 ≤ (s 69).params.codeBase ∧
      (s 69).params.codeBase + (List.replicate 938 (0x12 : Byte)).length ≤ (s 69).params.stackLimit) ∧
      ((s 69).start.params.valid = true ∧ (s 69).start.engine ≠ .ready) ∧
      (s 1024).params.memSize < (s 1024).params.codeBase + [(0x13 : Byte)].length ∧
      (∀ n ∈ [63, 64, 68, 0x3EF, 0x3FF], (s n).params.valid = true ∧ (s n).engine = .ready ∧
        (s n).params.codeBase + [(0x13 : Byte)].length ≤ (s n).params.memSize) ∧
      (s 63).params.codeBase ≤ 63 ∧ (64 ≤ (s 68).params.codeBase ∧ (s 68).params.codeBase ≤ 68) ∧
      (69 ≤ (s 0x3EF).params.codeBase ∧
        (s 0x3EF).params.stackLimit < (s 0x3EF).params.codeBase + [(0x13 : Byte)].length) ∧
      (s 64).params.codeBase < 69 ∧
      (s 1024).params.stackLimit < (s 1024).params.codeBase + ([] : List Byte).length := by
  rw [List.length_replicate]; decide

theorem test_witness_AssembledLengthIsSumOfSizes :
    ∃ body bytes, findBody (normalise [".text".toList, "mov r0, #5".toList]) = some body ∧
      assemble [".text".toList, "mov r0, #5".toList] 0x100 = .ok bytes := ⟨_, _, rfl, rfl⟩

/-- The label's last definition is its second. -/
theorem test_witness_LabelResolvesToLastDefinition :
    let l : SourceLine := ⟨4, "a:".toList⟩
    l.labelName = some "a".toList ∧ ∀ k ∈ [(⟨5, "ret".toList⟩ : SourceLine)], k.labelName ≠ some "a".toList := by decide

/-- `push r0` and `push #5`. -/
theorem test_witness_AssembledStatementsDecodeOrAreIllegal :
    (Stmt.arityOk ⟨.push, [.reg .r0]⟩ = true ∧ Stmt.formOk ⟨.push, [.reg .r0]⟩ = true) ∧
      Stmt.arityOk ⟨.push, [.word 5]⟩ = true ∧ Stmt.formOk ⟨.push, [.word 5]⟩ = false := by decide

theorem test_witness_FirstFailingLineIsReported :
    ∃ bytes e, encodeBody [] [⟨2, "nop".toList⟩] = .ok bytes ∧
      (⟨3, "FOO r0".toList⟩ : SourceLine).labelName = none ∧
      parseLine [] ⟨3, "FOO r0".toList⟩ = .error e := ⟨_, _, rfl, by decide, rfl⟩

end Sys2Proof.Tests
end

section
/-! PROOFS. Construction and load (rules R5, R270, R272): the layout that legal parameters give, the region that a write
meets first, and the refusals of a load in the order R272 tests them. -/

namespace Sys2Proof.Machine

/-! ### Legal parameters and the layout -/

theorem Params.valid_iff (p : Params) :
    p.valid = true ↔ 1 ≤ p.stackSlots ∧ 70 + 4 * p.stackSlots ≤ p.memSize ∧ p.memSize ≤ 2 ^ 32 - 1 := by
  simp only [Params.valid, Bool.and_eq_true, decide_eq_true_eq, and_assoc]

theorem Params.stackBase_succ {p : Params} (h : p.valid = true) : p.stackBase + 1 = p.memSize := by
  obtain ⟨-, hfit, -⟩ := (Params.valid_iff p).mp h
  unfold Params.stackBase
  omega

/-- Code addresses below the stack fit a register (R5, R22). -/
theorem Params.stackLimit_lt {p : Params} (h : p.valid = true) : p.stackLimit < 2 ^ 32 := by
  obtain ⟨-, -, hmax⟩ := (Params.valid_iff p).mp h
  unfold Params.stackLimit Params.stackBase
  omega

theorem Params.stackLimit_lt_memSize {p : Params} (h : p.valid = true) : p.stackLimit < p.memSize := by
  have hbase := Params.stackBase_succ h
  unfold Params.stackLimit
  omega

theorem construct_eq_none_iff (p : Params) : construct p = none ↔ ¬ p.valid = true := by
  by_cases h : p.valid = true <;> simp [construct, h]

/-! ### The region a write meets first (R66) -/

theorem collision_of_registers (p : Params) {addr n : Nat} (h : addr ≤ 63) (hn : 1 ≤ n) :
    collision p addr n = some .registers := by
  have hreg : overlaps addr n regBase regEnd = true := (overlaps_iff _ _ _ _).mpr ⟨h, by unfold regBase; omega⟩
  rw [collision, if_pos hreg]

theorem not_overlaps_registers {addr : Nat} (n : Nat) (h : 64 ≤ addr) : ¬ overlaps addr n regBase regEnd = true := by
  rw [overlaps_iff]
  unfold regEnd
  omega

theorem collision_of_flags (p : Params) {addr n : Nat} (h : 64 ≤ addr) (h' : addr ≤ 68) (hn : 1 ≤ n) :
    collision p addr n = some .flags := by
  have hflag : overlaps addr n flagBase flagEnd = true := (overlaps_iff _ _ _ _).mpr ⟨h', by unfold flagBase; omega⟩
  rw [collision, if_neg (not_overlaps_registers n h), if_pos hflag]

theorem not_overlaps_flags {addr : Nat} (n : Nat) (h : 69 ≤ addr) : ¬ overlaps addr n flagBase flagEnd = true := by
  rw [overlaps_iff]
  unfold flagEnd
  omega

theorem collision_of_stack (p : Params) {addr n : Nat} (h : 69 ≤ addr) (hbase : addr ≤ p.stackBase)
    (hlimit : p.stackLimit < addr + n) : collision p addr n = some .stack := by
  have hstack : overlaps addr n p.stackLimit p.stackBase = true := (overlaps_iff _ _ _ _).mpr ⟨hbase, hlimit⟩
  rw [collision, if_neg (not_overlaps_registers n (by omega)), if_neg (not_overlaps_flags n h), if_pos hstack]

theorem collision_of_general (p : Params) {addr n : Nat} (h : 69 ≤ addr) (hlimit : addr + n ≤ p.stackLimit) :
    collision p addr n = none :=
  (collision_none_iff p addr n).mpr ⟨by omega, by omega, by omega⟩

/-! ### What placing an image changes -/

theorem not_inReg_of_le {r : Reg} {a : Nat} (h : 64 ≤ a) : ¬ InReg r a := by
  have := Reg.code_lt r
  unfold InReg
  omega

theorem State.placeImage_reg_pc (s : State) (image : List Byte) :
    (s.placeImage image).reg .pc = BitVec.ofNat 32 s.params.codeBase :=
  State.reg_setReg_same _ _ _

/-- An image above the registers is not touched by the write of `pc` after it (R272). -/
theorem State.byte_placeImage_inside (s : State) {image : List Byte} {k : Nat} (h : 64 ≤ s.params.codeBase)
    (hk : k < image.length) : (s.placeImage image).byte (s.params.codeBase + k) = image[k] :=
  (State.byte_setReg _ _ _ (not_inReg_of_le (by omega))).trans (Memory.read_writeBytes_inside _ _ _ _ hk)

theorem State.placeImage_frame (s : State) (image : List Byte) :
    SameBytesBut s (s.placeImage image)
      (fun a => InReg .pc a ∨ (s.params.codeBase ≤ a ∧ a < s.params.codeBase + image.length)) := by
  intro a ha
  obtain ⟨hpc, himage⟩ := not_or.mp ha
  exact (State.byte_setReg _ _ _ hpc).trans (Memory.read_writeBytes_outside _ _ _ _ (by omega))

theorem State.placeImage_sameControl (s : State) (image : List Byte) : SameControl s (s.placeImage image) :=
  ⟨s.placeImage_params image, s.placeImage_engine image, s.placeImage_record image, s.placeImage_syscalls image⟩

/-! ### The answers of a load, in the order R272 tests them -/

theorem State.load_of_not_ready {s : State} (image : List Byte) (h : s.engine ≠ .ready) :
    s.load image = .error .notReady := by
  rw [State.load, if_neg h]

theorem State.load_of_beyond_memory {s : State} {image : List Byte} (he : s.engine = .ready)
    (h : s.params.memSize < s.params.codeBase + image.length) : s.load image = .error .outOfMemory := by
  rw [State.load, if_pos he, if_neg (by rw [State.inBounds_iff]; omega)]

theorem State.load_of_collision {s : State} {image : List Byte} {region : Region} (he : s.engine = .ready)
    (hb : s.params.codeBase + image.length ≤ s.params.memSize)
    (hc : collision s.params s.params.codeBase image.length = some region) :
    s.load image = .error (.regionCollision region) := by
  rw [State.load, if_pos he, if_pos ((State.inBounds_iff _ _ _).mpr hb), hc]

theorem State.load_of_general {s : State} {image : List Byte} (hv : s.params.valid = true) (he : s.engine = .ready)
    (h : 69 ≤ s.params.codeBase) (hlimit : s.params.codeBase + image.length ≤ s.params.stackLimit) :
    s.load image = .ok (s.placeImage image) := by
  have hmem := Params.stackLimit_lt_memSize hv
  exact (State.load_ok_iff s _ image).mpr ⟨he, by omega, collision_of_general _ h hlimit, h, hlimit, rfl⟩

/-- No load outside the constraint of R5 on `CODE_BASE` is accepted (U11). -/
theorem State.load_outside_refused (s : State) (image : List Byte)
    (h : s.params.codeBase < 69 ∨ s.params.stackLimit < s.params.codeBase + image.length) :
    ∃ e, s.load image = .error e := by
  cases hload : s.load image with
  | error e => exact ⟨e, rfl⟩
  | ok t =>
    obtain ⟨-, -, -, hlow, hhigh, -⟩ := (State.load_ok_iff s t image).mp hload
    omega

/-! ### The obligations -/

/-- Settles O2: `construct` tests `Params.valid`, which is the constraint of R5. -/
theorem constructionOutsideConstraintsIsRefused : Obligations.ConstructionOutsideConstraintsIsRefused := by
  intro p
  rw [construct_eq_none_iff, Params.valid_iff]

/-- Settles O56: each clause is one answer of the load; an image of at least one byte inside memory begins at or below
`STACK_BASE`, so the region it meets first is read off `CODE_BASE`. -/
theorem loadPlacesImageAtCodeBase : Obligations.LoadPlacesImageAtCodeBase := by
  intro s image hv
  refine ⟨?accepted, State.load_of_not_ready image, State.load_of_beyond_memory, ?reserved,
    State.load_outside_refused s image⟩
  case accepted =>
    intro he hlow hlimit
    refine ⟨s.placeImage image, State.load_of_general hv he hlow hlimit, ?pc, ?image,
      s.placeImage_sameControl image, s.placeImage_frame image⟩
    case pc =>
      have hfits := Params.stackLimit_lt hv
      rw [State.placeImage_reg_pc, BitVec.toNat_ofNat, Nat.mod_eq_of_lt (by omega)]
    case image =>
      intro k hk
      rw [State.byte_placeImage_inside s (by omega) hk, List.getElem?_eq_getElem hk]
  case reserved =>
    intro he hb hne
    have hlen : 1 ≤ image.length := List.length_pos_iff.mpr hne
    have hbase := Params.stackBase_succ hv
    exact ⟨fun h => State.load_of_collision he hb (collision_of_registers _ h hlen),
      fun h h' => State.load_of_collision he hb (collision_of_flags _ h h' hlen),
      fun h hlimit => State.load_of_collision he hb (collision_of_stack _ h (by omega) hlimit)⟩

end Sys2Proof.Machine
end

section
/-! PROOFS. What an instruction can do to the state, said once for all 39 (rules R112, R113): `executed_of_exec`. Every
statement about all instructions is then a case split over `Handled`, which has one case per kind of write. -/

namespace Sys2Proof.Machine

/-! ### A word of memory replaced -/

/-- The state with the four bytes at an address replaced by a word's, without any check (R63). -/
def State.withWord (s : State) (n : Nat) (v : Word) : State := { s with mem := s.mem.writeBytes n (wordBytes v) }

theorem State.setReg_eq_withWord (s : State) (r : Reg) (v : Word) : s.setReg r v = s.withWord (regAddr r) v := rfl

theorem State.byte_withWord (s : State) {n a : Nat} (v : Word) (h : ¬ InWord n a) :
    (s.withWord n v).byte a = s.byte a :=
  State.byte_writeWord s n v h

/-- A word written above Region A leaves the registers alone. -/
theorem State.reg_withWord (s : State) {n : Nat} (v : Word) (h : 64 ≤ n) (r : Reg) :
    (s.withWord n v).reg r = s.reg r := by
  have hr := regAddr_bound r
  exact congrArg leWord (Memory.readBytes_writeBytes_disjoint _ _ _ _ _ (.inl (by omega)))

theorem InReg.le {r : Reg} {a : Nat} (h : InReg r a) : a ≤ 63 := by
  by_contra hlt
  exact not_inReg_of_le (by omega) h

/-! ### Flag writes -/

/-- The states that flag writes alone make of `s`. -/
inductive FlagWrites (s : State) : State → Prop
  | none : FlagWrites s s
  | flag {u : State} (f : Flag) (b : Bool) (hu : FlagWrites s u) : FlagWrites s (u.setFlag f b)

theorem FlagWrites.setFlags5 (s : State) (r : Word) (c v : Bool) : FlagWrites s (s.setFlags5 r c v) :=
  ((((none.flag _ _).flag _ _).flag _ _).flag _ _).flag _ _

theorem FlagWrites.setFlagsZS (s : State) (r : Word) : FlagWrites s (s.setFlagsZS r) := (none.flag _ _).flag _ _

theorem FlagWrites.sameControl {s u : State} (h : FlagWrites s u) : SameControl s u := by
  induction h with
  | none => exact ⟨rfl, rfl, rfl, rfl⟩
  | flag f b hu ih => exact ih

theorem FlagWrites.reg_eq {s u : State} (h : FlagWrites s u) (r : Reg) : u.reg r = s.reg r := by
  induction h with
  | none => rfl
  | flag f b hu ih => exact (State.reg_setFlag _ f b r).trans ih

theorem FlagWrites.sameBytesBut {s u : State} (h : FlagWrites s u) : SameBytesBut s u InFlags := by
  intro a ha
  induction h with
  | none => rfl
  | flag f b hu ih =>
    have hne : flagAddr f ≠ a := fun e => ha (e ▸ flagAddr_bound f)
    exact ((State.setFlag_read _ f b a).trans (if_neg hne)).trans ih

/-! ### What a handler can do -/

/-- The states a handler of `i` can leave `s` in when it raises no fault, before the write that ends the step by setting
`pc` (R113). -/
inductive Handled (s : State) : Instr → State → Prop
  | unchanged (i : Instr) : Handled s i s
  | moved {i : Instr} {r : Reg} (v : Word) (hd : destination i = some r) : Handled s i (s.setReg r v)
  | flagged {i : Instr} {u : State} (hf : writesFlags i) (hu : FlagWrites s u) : Handled s i u
  | computed {i : Instr} {r : Reg} {u : State} (v : Word) (hd : destination i = some r) (hf : writesFlags i)
      (hu : FlagWrites (s.setReg r v) u) : Handled s i u
  | stored (r : Reg) (addr : Word) (hb : addr.toNat + 4 ≤ s.params.memSize)
      (hc : collision s.params addr.toNat 4 = none) : Handled s (.store r addr) (s.withWord addr.toNat (s.reg r))
  | pushed {i : Instr} (v : Word) (hp : pushes i) (hl : s.params.stackLimit < (s.reg .sp).toNat)
      (hb : (s.reg .sp - 4).toNat + 4 ≤ s.params.memSize) :
      Handled s i ((s.withWord (s.reg .sp - 4).toNat v).setReg .sp (s.reg .sp - 4))
  | popped (r : Reg) (v : Word) (hl : (s.reg .sp).toNat < s.params.stackBase) :
      Handled s (.pop r) ((s.setReg r v).setReg .sp ((s.setReg r v).reg .sp + 4))
  | returned (hl : (s.reg .sp).toNat < s.params.stackBase) : Handled s .ret (s.setReg .sp (s.reg .sp + 4))
  | halted : Handled s .halt { s with engine := .halted }
  | answered : Handled s .syscall { s with syscalls := s.syscalls + 1 }
  | answeredValue (v : Word) : Handled s .syscall ({ s with syscalls := s.syscalls + 1 }.setReg .acc v)

/-- The states an execution of `i` in `s` can end in: a fault taken, or a handler's work followed by the write of `pc`,
whether to the cursor or to a target (R113, R250). -/
inductive Executed (s : State) (i : Instr) : State → Prop
  | faulted (c : FaultCause) : Executed s i (s.raise c)
  | ended {u : State} (w : Word) (hu : Handled s i u) : Executed s i (u.setReg .pc w)

/-- The outcome is a next state that an execution of `i` can end in. -/
def Executes (s : State) (i : Instr) (o : StepOutcome) : Prop := ∃ t, o = .next t ∧ Executed s i t

theorem Executes.advance {s : State} {i : Instr} {f : Form} {r : Result} (h : ∀ u, r = .ok u → Handled s i u) :
    Executes s i (s.advance f r) := by
  cases r with
  | ok u => exact ⟨_, rfl, .ended _ (h u rfl)⟩
  | error c => exact ⟨_, rfl, .faulted c⟩

theorem Executes.advance_ok {s u : State} {i : Instr} {f : Form} (h : Handled s i u) :
    Executes s i (s.advance f (.ok u)) := ⟨_, rfl, .ended _ h⟩

theorem Executes.transfer {s u : State} {i : Instr} {target : Word} (h : Handled s i u) :
    Executes s i (s.conclude (.ok (u.transfer target))) := ⟨_, rfl, .ended target h⟩

theorem Executes.jumpIf (s : State) (i : Instr) (taken : Bool) (addr : Word) : Executes s i (s.jumpIf taken addr) := by
  cases taken with
  | true => exact .transfer (.unchanged i)
  | false => exact .advance_ok (.unchanged i)

/-! The shared operations that can be refused. -/

section
variable {s u : State} {i : Instr} {dst : Reg} {x y v : Word}

theorem handled_divTo (hd : destination i = some dst) (hf : writesFlags i) (h : s.divTo dst x y = .ok u) :
    Handled s i u := by
  obtain ⟨-, he⟩ | ⟨-, he⟩ := State.divTo_cases s dst x y
  · cases he.symm.trans h
  · cases he.symm.trans h
    exact .computed _ hd hf (.setFlagsZS ..)

theorem handled_modTo (hd : destination i = some dst) (hf : writesFlags i) (h : s.modTo dst x y = .ok u) :
    Handled s i u := by
  obtain ⟨-, he⟩ | ⟨-, he⟩ := State.modTo_cases s dst x y
  · cases he.symm.trans h
  · cases he.symm.trans h
    exact .computed _ hd hf (.setFlagsZS ..)

theorem handled_pushWord (hp : pushes i) (h : s.pushWord v = .ok u) : Handled s i u := by
  obtain ⟨hl, hb, rfl⟩ := (State.pushWord_ok_iff s u v).mp h
  exact .pushed v hp hl hb

end

/-! The instructions whose handler does more than call one shared operation. -/

theorem executes_load (s : State) (r : Reg) (addr : Word) : Executes s (.load r addr) (execLoad r addr s) := by
  unfold execLoad
  cases s.memRead addr.toNat with
  | error c => exact ⟨_, rfl, .faulted c⟩
  | ok v => exact .advance_ok (.moved v rfl)

theorem executes_store (s : State) (r : Reg) (addr : Word) : Executes s (.store r addr) (execStore r addr s) := by
  refine .advance fun u hu => ?_
  obtain ⟨hb, hc, rfl⟩ := (State.storeWord_ok_iff s u addr (s.reg r)).mp hu
  exact .stored r addr hb hc

theorem executes_pop (s : State) (r : Reg) : Executes s (.pop r) (execPop r s) := by
  unfold execPop
  cases hv : s.topWord with
  | error c => exact ⟨_, rfl, .faulted c⟩
  | ok v => exact .advance_ok (.popped r v ((State.topWord_ok_iff s v).mp hv).1)

theorem executes_ret (s : State) : Executes s .ret (execRet s) := by
  unfold execRet
  cases hv : s.topWord with
  | error c => exact ⟨_, rfl, .faulted c⟩
  | ok v => exact .transfer (.returned ((State.topWord_ok_iff s v).mp hv).1)

theorem executes_call (s : State) (addr : Word) : Executes s (.call addr) (execCall addr s) := by
  unfold execCall
  cases hv : s.pushWord (s.cursor [.word]) with
  | error c => exact ⟨_, rfl, .faulted c⟩
  | ok u => exact .transfer (handled_pushWord (.tail _ (.head _)) hv)

theorem executes_syscall (s : State) : Executes s .syscall (execSyscall s) := by
  unfold execSyscall
  cases s.hostAnswer with
  | value v => exact .advance_ok (.answeredValue v)
  | noValue => exact .advance_ok .answered
  | fail => exact ⟨_, rfl, .faulted _⟩

/-- Every instruction has a next state in every state, and it is one of those of `Executed` (R112, R113). -/
theorem exec_executes (s : State) (i : Instr) : Executes s i (exec i s) := by
  cases i with
  | push r => exact .advance fun u => handled_pushWord (.head _)
  | pop r => exact executes_pop s r
  | movRR r src | movRW r src => exact .advance_ok (.moved _ rfl)
  | load r addr => exact executes_load s r addr
  | store r addr => exact executes_store s r addr
  | addRRR dst x y | addRWR dst x y | addRRW dst x y | addRWW dst x y
  | subRRR dst x y | subRWR dst x y | subRRW dst x y | subRWW dst x y =>
    exact .advance_ok (.computed _ rfl (by simp [writesFlags, mnemonicOf, Instr.toStmt]) (.setFlags5 ..))
  | mulRRR dst x y | mulRWR dst x y | mulRRW dst x y | mulRWW dst x y =>
    exact .advance_ok (.computed _ rfl (by simp [writesFlags, mnemonicOf, Instr.toStmt]) (.setFlagsZS ..))
  | divRRR dst x y | divRWR dst x y | divRRW dst x y | divRWW dst x y =>
    exact .advance fun u => handled_divTo rfl (by simp [writesFlags, mnemonicOf, Instr.toStmt])
  | modRRR dst x y | modRWR dst x y | modRRW dst x y | modRWW dst x y =>
    exact .advance fun u => handled_modTo rfl (by simp [writesFlags, mnemonicOf, Instr.toStmt])
  | jump addr => exact .transfer (.unchanged _)
  | jumpIfZero addr | jumpIfCarry addr => exact .jumpIf s _ _ addr
  | cmpRR x y | cmpWR x y | cmpRW x y | cmpWW x y =>
    exact .advance_ok (.flagged (by simp [writesFlags, mnemonicOf, Instr.toStmt]) (.setFlags5 ..))
  | call addr => exact executes_call s addr
  | ret => exact executes_ret s
  | test r => exact .advance_ok (.flagged (by simp [writesFlags, mnemonicOf, Instr.toStmt]) (.setFlagsZS ..))
  | nop => exact .advance_ok (.unchanged _)
  | halt => exact .advance_ok .halted
  | syscall => exact executes_syscall s

/-- All that an instruction can do. -/
theorem executed_of_exec {i : Instr} {s t : State} (h : exec i s = .next t) : Executed s i t := by
  obtain ⟨u, hu, hex⟩ := exec_executes s i
  cases hu.symm.trans h
  exact hex

end Sys2Proof.Machine
end

section
/-! PROOFS. The state and its regions (rules R20 to R36, R60): reset values, the invariant, who writes which byte,
and the values that flag bytes, `sp` and the engine state keep to. -/

namespace Sys2Proof.Machine

/-! ### Layout and addresses -/

theorem Params.stackLimit_add {p : Params} (h : p.valid = true) : p.stackLimit + 4 * p.stackSlots = p.stackBase := by
  obtain ⟨-, hfit, -⟩ := (Params.valid_iff p).mp h
  unfold Params.stackLimit Params.stackBase
  omega

theorem Params.le_stackLimit {p : Params} (h : p.valid = true) : 69 ≤ p.stackLimit := by
  obtain ⟨-, hfit, -⟩ := (Params.valid_iff p).mp h
  unfold Params.stackLimit Params.stackBase
  omega

/-- A word in bounds that meets no reserved region lies in general memory (R66). -/
theorem general_of_collision_none {p : Params} {n : Nat} (hv : p.valid = true) (hb : n + 4 ≤ p.memSize)
    (hc : collision p n 4 = none) : 69 ≤ n ∧ n + 4 ≤ p.stackLimit := by
  have hbase := Params.stackBase_succ hv
  obtain ⟨hregs, hflags, hstack⟩ := (collision_none_iff p n 4).mp hc
  omega

/-- The address of a pushed word does not wrap below 0 (R171). -/
theorem toNat_sub_four {p : Params} {w : Word} (hv : p.valid = true) (hl : p.stackLimit < w.toNat) :
    (w - 4).toNat + 4 = w.toNat := by
  have hlow := Params.le_stackLimit hv
  bv_omega

/-! ### What lies outside memory -/

/-- No handler changes the parameters or the fault record, and only that of HALT changes the engine state (R221). -/
theorem Handled.control {s u : State} {i : Instr} (h : Handled s i u) :
    u.params = s.params ∧ u.record = s.record ∧ (u.engine = s.engine ∨ i = .halt ∧ u.engine = .halted) := by
  cases h with
  | flagged hf hu | computed v hd hf hu =>
    obtain ⟨hparams, hengine, hrecord, -⟩ := hu.sameControl
    exact ⟨hparams, hrecord, .inl hengine⟩
  | halted => exact ⟨rfl, rfl, .inr ⟨rfl, rfl⟩⟩
  | _ => exact ⟨rfl, rfl, .inl rfl⟩

theorem Executed.params_eq {s t : State} {i : Instr} (h : Executed s i t) : t.params = s.params := by
  cases h with
  | faulted c => rfl
  | ended w hu => exact hu.control.1

theorem Executed.engine_cases {s t : State} {i : Instr} (h : Executed s i t) :
    t.engine = s.engine ∨ t.engine = .halted ∨ t.engine = .faulted := by
  cases h with
  | faulted c => exact .inr (.inr rfl)
  | ended w hu =>
    obtain ⟨-, -, hsame | ⟨-, hhalted⟩⟩ := hu.control
    · exact .inl hsame
    · exact .inr (.inl hhalted)

theorem Dispatching.terminal_eq {s : State} (h : Dispatching s) : s.engine.terminal = false := by
  obtain ⟨-, hready | hrunning⟩ := h
  · rw [hready]; rfl
  · rw [hrunning]; rfl

theorem step_of_decode {s : State} {i : Instr} {rest : List Byte} (hv : s.params.valid = true)
    (ht : s.engine.terminal = false) (hd : decode s.fetchBytes = .ok (i, rest)) : step s = exec i s.start := by
  have hfetch : s.start.fetch = .ok i := by
    have hb : s.start.fetchBytes = s.fetchBytes := rfl
    rw [State.fetch, hb, hd]
  rw [step, if_pos hv, ht, hfetch]
  rfl

/-! ### Reset values -/

/-- The machine before its one non-zero register is written (R36). -/
def State.zeroed (p : Params) : State := { params := p, mem := [], engine := .ready, record := none, syscalls := 0 }

@[simp] theorem State.zeroed_reg (p : Params) (r : Reg) : (State.zeroed p).reg r = 0 := rfl

@[simp] theorem State.zeroed_flag (p : Params) (f : Flag) : (State.zeroed p).flag f = false := rfl

@[simp] theorem State.zeroed_byte (p : Params) (a : Nat) : (State.zeroed p).byte a = 0 := rfl

theorem Params.toNat_stackBase {p : Params} (h : p.valid = true) :
    (BitVec.ofNat 32 p.stackBase).toNat = p.stackBase := by
  obtain ⟨-, -, hmax⟩ := (Params.valid_iff p).mp h
  have hbase := Params.stackBase_succ h
  rw [BitVec.toNat_ofNat]
  omega

/-- A constructed machine is the zeroed one with `STACK_BASE` in `sp` (R36, R270). -/
theorem State.ofParams_eq {p : Params} (h : p.valid = true) :
    State.ofParams p = (State.zeroed p).setReg .sp (BitVec.ofNat 32 p.stackBase) := by
  rw [State.setReg, wordBytes, Params.toNat_stackBase h]
  rfl

theorem construct_eq_some_iff (p : Params) (s : State) :
    construct p = some s ↔ p.valid = true ∧ s = State.ofParams p := by
  unfold construct
  split_ifs with h <;> simp [h, eq_comm]

/-! ### The invariant -/

theorem State.Inv.params_valid {s : State} (h : s.Inv) : s.params.valid = true := h.1

theorem State.Inv.mem_wf {s : State} (h : s.Inv) : s.mem.wf = true := h.2.1

theorem State.Inv.mem_below {s : State} (h : s.Inv) : ∀ e ∈ s.mem, e.1 < s.params.memSize := h.2.2.1

/-- Regions A and B lie inside memory (R5, R6). -/
theorem State.Inv.le_memSize {s : State} (h : s.Inv) : 69 ≤ s.params.memSize := by
  obtain ⟨-, hfit, -⟩ := (Params.valid_iff _).mp h.params_valid
  omega

theorem State.Inv.withMem {s : State} {m : Memory} (h : s.Inv) (hw : m.wf = true)
    (hm : ∀ e ∈ m, e.1 < s.params.memSize) : State.Inv { s with mem := m } := by
  obtain ⟨hv, -, -, hrecord⟩ := h
  exact ⟨hv, hw, hm, hrecord⟩

theorem State.Inv.withWord {s : State} (h : s.Inv) {n : Nat} (v : Word) (hn : n + 4 ≤ s.params.memSize) :
    (s.withWord n v).Inv :=
  h.withMem (Memory.writeBytes_wf _ _ h.mem_wf) (Memory.writeBytes_below h.mem_below (by simpa using hn))

theorem State.Inv.setReg {s : State} (h : s.Inv) (r : Reg) (v : Word) : (s.setReg r v).Inv := by
  have hr := regAddr_bound r
  have hmem := h.le_memSize
  exact h.withWord v (by omega)

theorem State.Inv.setFlag {s : State} (h : s.Inv) (f : Flag) (b : Bool) : (s.setFlag f b).Inv := by
  have hf := flagAddr_bound f
  have hmem := h.le_memSize
  exact h.withMem (Memory.write_wf _ _ h.mem_wf) (Memory.write_below h.mem_below (by omega))

theorem State.Inv.raise {s : State} (h : s.Inv) (c : FaultCause) : (s.raise c).Inv :=
  ⟨h.params_valid, h.mem_wf, h.mem_below, by simp⟩

theorem State.Inv.withSyscalls {s : State} (h : s.Inv) (n : Nat) : State.Inv { s with syscalls := n } := h

/-- The engine state may change between states other than `Faulted`, in which the record is empty (R30). -/
theorem State.Inv.withEngine {s : State} (h : s.Inv) {e : EngineState} (hs : s.engine ≠ .faulted)
    (he : e ≠ .faulted) : State.Inv { s with engine := e } := by
  obtain ⟨hv, hw, hm, hrecord⟩ := h
  exact ⟨hv, hw, hm, by simpa only [hrecord, he, iff_false] using hs⟩

theorem FlagWrites.inv {s u : State} (h : FlagWrites s u) (hs : s.Inv) : u.Inv := by
  induction h with
  | none => exact hs
  | flag f b hu ih => exact ih.setFlag f b

theorem Handled.inv {s u : State} {i : Instr} (h : Handled s i u) (hs : s.Inv) (he : s.engine ≠ .faulted) :
    u.Inv := by
  cases h with
  | unchanged => exact hs
  | moved v hd => exact hs.setReg _ v
  | flagged hf hu => exact hu.inv hs
  | computed v hd hf hu => exact hu.inv (hs.setReg _ v)
  | stored r addr hb hc => exact hs.withWord _ hb
  | pushed v hp hl hb => exact (hs.withWord v hb).setReg _ _
  | popped r v hl => exact (hs.setReg r v).setReg _ _
  | returned hl => exact hs.setReg _ _
  | halted => exact hs.withEngine he (by decide)
  | answered => exact hs.withSyscalls _
  | answeredValue v => exact (hs.withSyscalls _).setReg _ v

theorem Executed.inv {s t : State} {i : Instr} (h : Executed s i t) (hs : s.Inv) (he : s.engine ≠ .faulted) :
    t.Inv := by
  cases h with
  | faulted c => exact hs.raise c
  | ended w hu => exact (hu.inv hs he).setReg _ w

theorem State.Inv.start {s : State} (h : s.Inv) (ht : s.engine.terminal = false) : s.start.Inv :=
  h.withEngine (fun e => by simp [e, EngineState.terminal] at ht) (by decide)

theorem State.ofParams_inv {p : Params} (h : p.valid = true) : (State.ofParams p).Inv := by
  have hzeroed : (State.zeroed p).Inv := ⟨h, rfl, by simp [State.zeroed], by simp [State.zeroed]⟩
  rw [State.ofParams_eq h]
  exact hzeroed.setReg _ _

/-! ### Who writes which byte (R27, R34, R171, R182) -/

/-- The addresses that `i` may change in a state with parameters `p`, region by region. -/
def MayWrite (p : Params) (i : Instr) (a : Nat) : Prop :=
  a ≤ 63 ∨
  (64 ≤ a ∧ a ≤ 68 ∧ (writesFlags i ∨ (pushes i ∧ p.stackLimit ≤ a + 3))) ∨
  (69 ≤ a ∧ a < p.stackLimit ∧ (mnemonicOf i = .store ∨ (pushes i ∧ p.stackLimit ≤ a + 3))) ∨
  (p.stackLimit ≤ a ∧ a ≤ p.stackBase ∧ pushes i)

theorem MayWrite.of_flags {p : Params} {i : Instr} {a : Nat} (hf : writesFlags i) (h : InFlags a) : MayWrite p i a := by
  obtain ⟨hlow, hhigh⟩ := h
  exact .inr (.inl ⟨hlow, hhigh, .inl hf⟩)

theorem MayWrite.of_store {p : Params} {r : Reg} {addr : Word} {a n : Nat} (hv : p.valid = true)
    (hb : n + 4 ≤ p.memSize) (hc : collision p n 4 = none) (h : InWord n a) : MayWrite p (.store r addr) a := by
  obtain ⟨hlow, hhigh⟩ := h
  obtain ⟨hgeneral, hlimit⟩ := general_of_collision_none hv hb hc
  exact .inr (.inr (.inl ⟨by omega, by omega, .inl rfl⟩))

/-- A push writes at and above `STACK_LIMIT - 3`, whatever `sp` holds (R171). -/
theorem MayWrite.of_push {p : Params} {i : Instr} {w : Word} {a : Nat} (hv : p.valid = true) (hp : pushes i)
    (hl : p.stackLimit < w.toNat) (hb : (w - 4).toNat + 4 ≤ p.memSize) (h : InWord (w - 4).toNat a) :
    MayWrite p i a := by
  obtain ⟨hlow, hhigh⟩ := h
  have hbase := Params.stackBase_succ hv
  have hlimit := Params.le_stackLimit hv
  have hsp := toNat_sub_four hv hl
  have hreach : p.stackLimit ≤ a + 3 := by omega
  rcases Nat.lt_or_ge a 69 with hflags | hflags
  · exact .inr (.inl ⟨by omega, by omega, .inr ⟨hp, hreach⟩⟩)
  rcases Nat.lt_or_ge a p.stackLimit with hgeneral | hstack
  · exact .inr (.inr (.inl ⟨hflags, hgeneral, .inr ⟨hp, hreach⟩⟩))
  · exact .inr (.inr (.inr ⟨hstack, by omega, hp⟩))

/-- A byte that a register write changes is in Region A, so another change is left to explain only where none is. -/
theorem MayWrite.of_setReg {p : Params} {i : Instr} {s : State} {r : Reg} {v : Word} {a : Nat} {b : Byte}
    (h : (s.setReg r v).byte a ≠ b) (hs : s.byte a ≠ b → MayWrite p i a) : MayWrite p i a := by
  by_cases hr : InReg r a
  · exact .inl hr.le
  · exact hs (State.byte_setReg s r v hr ▸ h)

theorem MayWrite.of_flagWrites {p : Params} {i : Instr} {s u : State} {a : Nat} {b : Byte} (hf : writesFlags i)
    (hu : FlagWrites s u) (h : u.byte a ≠ b) (hs : s.byte a ≠ b → MayWrite p i a) : MayWrite p i a := by
  by_cases ha : InFlags a
  · exact .of_flags hf ha
  · exact hs (hu.sameBytesBut a ha ▸ h)

theorem inWord_of_byte_ne {s : State} {n a : Nat} {v : Word} (h : (s.withWord n v).byte a ≠ s.byte a) : InWord n a :=
  of_not_not fun hn => h (s.byte_withWord v hn)

theorem Handled.mayWrite {s u : State} {i : Instr} {a : Nat} (h : Handled s i u) (hv : s.params.valid = true)
    (hne : u.byte a ≠ s.byte a) : MayWrite s.params i a := by
  have hkept : s.byte a ≠ s.byte a → MayWrite s.params i a := fun h => absurd rfl h
  cases h with
  | unchanged => exact hkept hne
  | moved v hd => exact .of_setReg hne hkept
  | flagged hf hu => exact .of_flagWrites hf hu hne hkept
  | computed v hd hf hu => exact .of_flagWrites hf hu hne fun h => .of_setReg h hkept
  | stored r addr hb hc => exact .of_store hv hb hc (inWord_of_byte_ne hne)
  | pushed v hp hl hb => exact .of_setReg hne fun h => .of_push hv hp hl hb (inWord_of_byte_ne h)
  | popped r v hl => exact .of_setReg hne fun h => .of_setReg h hkept
  | returned hl => exact .of_setReg hne hkept
  | halted => exact hkept hne
  | answered => exact hkept hne
  | answeredValue v => exact .of_setReg hne hkept

theorem Executed.mayWrite {s t : State} {i : Instr} {a : Nat} (h : Executed s i t) (hv : s.params.valid = true)
    (hne : t.byte a ≠ s.byte a) : MayWrite s.params i a := by
  cases h with
  | faulted c => exact absurd rfl hne
  | ended w hu => exact .of_setReg hne (hu.mayWrite hv)

/-! ### Flag bytes -/

theorem FlagBytesBoolean.congr {s t : State} (h : FlagBytesBoolean s) (hb : ∀ a, InFlags a → t.byte a = s.byte a) :
    FlagBytesBoolean t := by
  intro f
  rw [hb _ (flagAddr_bound f)]
  exact h f

theorem FlagBytesBoolean.setReg {s : State} (h : FlagBytesBoolean s) (r : Reg) (v : Word) :
    FlagBytesBoolean (s.setReg r v) :=
  h.congr fun _ ha => s.byte_setReg r v (not_inReg_of_le ha.1)

theorem FlagBytesBoolean.withWord {s : State} (h : FlagBytesBoolean s) {n : Nat} (v : Word) (hn : 69 ≤ n) :
    FlagBytesBoolean (s.withWord n v) :=
  h.congr fun a ha => s.byte_withWord v (by unfold InFlags at ha; unfold InWord; omega)

theorem FlagBytesBoolean.setFlag {s : State} (h : FlagBytesBoolean s) (f : Flag) (b : Bool) :
    FlagBytesBoolean (s.setFlag f b) := by
  intro g
  rw [State.byte, State.setFlag_read]
  split_ifs
  · exact .inr rfl
  · exact .inl rfl
  · exact h g

theorem FlagWrites.flagBytesBoolean {s u : State} (h : FlagWrites s u) (hs : FlagBytesBoolean s) :
    FlagBytesBoolean u := by
  induction h with
  | none => exact hs
  | flag f b hu ih => exact ih.setFlag f b

/-- With `STACK_LIMIT >= 72` no word that a STORE, PUSH or CALL writes reaches down to Region B (log entry 10). -/
theorem Handled.flagBytesBoolean {s u : State} {i : Instr} (h : Handled s i u) (hv : s.params.valid = true)
    (hlimit : 72 ≤ s.params.stackLimit) (hs : FlagBytesBoolean s) : FlagBytesBoolean u := by
  cases h with
  | moved v hd | answeredValue v => exact hs.setReg _ v
  | flagged hf hu => exact hu.flagBytesBoolean hs
  | computed v hd hf hu => exact hu.flagBytesBoolean (hs.setReg _ v)
  | stored r addr hb hc => exact hs.withWord _ (general_of_collision_none hv hb hc).1
  | pushed v hp hl hb =>
    have hsp := toNat_sub_four hv hl
    exact (hs.withWord v (by omega)).setReg _ _
  | popped r v hl => exact (hs.setReg r v).setReg _ _
  | returned hl => exact hs.setReg _ _
  | unchanged | halted | answered => exact hs

theorem Executed.flagBytesBoolean {s t : State} {i : Instr} (h : Executed s i t) (hv : s.params.valid = true)
    (hlimit : 72 ≤ s.params.stackLimit) (hs : FlagBytesBoolean s) : FlagBytesBoolean t := by
  cases h with
  | faulted c => exact hs
  | ended w hu => exact (hu.flagBytesBoolean hv hlimit hs).setReg _ w

/-! ### The stack pointer (R25, R33, R170) -/

/-- What can become of `sp` when no instruction names it: kept, lowered by a push that was not refused, or raised by
a pop that was not refused. -/
def StackPointerMoves (s t : State) : Prop :=
  t.reg .sp = s.reg .sp ∨
  (s.params.stackLimit < (s.reg .sp).toNat ∧ t.reg .sp = s.reg .sp - 4) ∨
  ((s.reg .sp).toNat < s.params.stackBase ∧ t.reg .sp = s.reg .sp + 4)

theorem Handled.stackPointerMoves {s u : State} {i : Instr} (h : Handled s i u) (hv : s.params.valid = true)
    (hne : destination i ≠ some .sp) : StackPointerMoves s u := by
  cases h with
  | unchanged | halted | answered => exact .inl rfl
  | moved v hd => exact .inl (State.reg_setReg_ne _ _ (by rintro rfl; exact hne hd))
  | flagged hf hu => exact .inl (hu.reg_eq _)
  | computed v hd hf hu => exact .inl ((hu.reg_eq _).trans (State.reg_setReg_ne _ _ (by rintro rfl; exact hne hd)))
  | stored r addr hb hc =>
    have hgeneral := (general_of_collision_none hv hb hc).1
    exact .inl (s.reg_withWord _ (by omega) _)
  | pushed v hp hl hb => exact .inr (.inl ⟨hl, State.reg_setReg_same _ _ _⟩)
  | popped r v hl =>
    have hr : Reg.sp ≠ r := by rintro rfl; exact hne rfl
    rw [State.reg_setReg_ne s v hr]
    exact .inr (.inr ⟨hl, State.reg_setReg_same _ _ _⟩)
  | returned hl => exact .inr (.inr ⟨hl, State.reg_setReg_same _ _ _⟩)
  | answeredValue v => exact .inl (State.reg_setReg_ne _ _ (by decide))

theorem Executed.stackPointerMoves {s t : State} {i : Instr} (h : Executed s i t) (hv : s.params.valid = true)
    (hne : destination i ≠ some .sp) : StackPointerMoves s t := by
  cases h with
  | faulted c => exact .inl rfl
  | @ended u w hu =>
    have hpc : (u.setReg .pc w).reg .sp = u.reg .sp := State.reg_setReg_ne u w (by decide)
    unfold StackPointerMoves
    rw [hpc]
    exact hu.stackPointerMoves hv hne

/-- The checks of push and pop keep `sp` from leaving the values `STACK_BASE - 4k` at either end (R170). -/
theorem StackPointerOk.of_moves {s t : State} (hs : StackPointerOk s) (hv : s.params.valid = true)
    (hparams : t.params = s.params) (h : StackPointerMoves s t) : StackPointerOk t := by
  obtain ⟨k, hk, hsp⟩ := hs
  have hlimit := Params.stackLimit_add hv
  have hfits := Params.toNat_stackBase hv
  unfold StackPointerOk
  rw [hparams]
  obtain hkept | ⟨hl, hpush⟩ | ⟨hl, hpop⟩ := h
  · exact ⟨k, hk, hkept ▸ hsp⟩
  · have hsub := toNat_sub_four hv hl
    exact ⟨k + 1, by omega, by rw [hpush]; omega⟩
  · have hadd : (s.reg .sp + 4).toNat = (s.reg .sp).toNat + 4 := by bv_omega
    exact ⟨k - 1, by omega, by rw [hpop]; omega⟩

/-! ### Canonical memories -/

theorem Memory.read_cons_self (a : Nat) (b : Byte) (m : Memory) : Memory.read ((a, b) :: m) a = b := if_pos rfl

theorem Memory.read_cons_ne {a c : Nat} (b : Byte) (m : Memory) (h : a ≠ c) :
    Memory.read ((a, b) :: m) c = m.read c := if_neg h

/-- A canonical memory begins no later than at any address where it reads a byte that is not `0x00`, such as the first one
listed in another canonical memory that reads alike there. -/
theorem Memory.head_le_of_read_eq {a c : Nat} {b d : Byte} {m n : Memory} (hm : Memory.wf ((a, b) :: m) = true)
    (hn : Memory.wf ((c, d) :: n) = true)
    (h : Memory.read ((a, b) :: m) a = Memory.read ((c, d) :: n) a) : c ≤ a := by
  obtain ⟨hb, -, -⟩ := (Memory.wf_cons a b m).mp hm
  obtain ⟨-, hc, -⟩ := (Memory.wf_cons c d n).mp hn
  by_contra hlt
  have hbelow : ∀ e ∈ (c, d) :: n, a < e.1 := by
    intro e he
    rcases List.mem_cons.mp he with rfl | he
    · exact Nat.lt_of_not_le hlt
    · exact Nat.lt_trans (Nat.lt_of_not_le hlt) (hc e he)
  rw [Memory.read_cons_self, Memory.read_below hbelow] at h
  exact hb h

theorem Memory.eq_of_read_eq {m n : Memory} (hm : m.wf = true) (hn : n.wf = true) (h : ∀ a, m.read a = n.read a) :
    m = n := by
  induction m generalizing n with
  | nil =>
    cases n with
    | nil => rfl
    | cons e n =>
      obtain ⟨c, d⟩ := e
      obtain ⟨hd, -, -⟩ := (Memory.wf_cons c d n).mp hn
      exact absurd ((h c).trans (Memory.read_cons_self c d n)).symm hd
  | cons e m ih =>
    obtain ⟨a, b⟩ := e
    obtain ⟨hb, ha, hm'⟩ := (Memory.wf_cons a b m).mp hm
    cases n with
    | nil => exact absurd ((Memory.read_cons_self a b m).symm.trans (h a)) hb
    | cons e n =>
      obtain ⟨c, d⟩ := e
      obtain ⟨-, hc, hn'⟩ := (Memory.wf_cons c d n).mp hn
      obtain rfl : a = c :=
        Nat.le_antisymm (Memory.head_le_of_read_eq hn hm (h c).symm) (Memory.head_le_of_read_eq hm hn (h a))
      obtain rfl : b = d := by simpa only [Memory.read_cons_self] using h a
      have htail : m = n := by
        refine ih hm' hn' fun x => ?_
        by_cases hx : a = x
        · subst hx
          rw [Memory.read_below ha, Memory.read_below hc]
        · simpa only [Memory.read_cons_ne b _ hx] using h x
      rw [htail]

/-! ### The obligations -/

/-- Settles O4: a terminal engine keeps its state; otherwise the started engine meets the invariant, and so does it
after a decoding fault and after each kind of write that an instruction makes. -/
theorem everyStepKeepsInvariant : Obligations.EveryStepKeepsInvariant := by
  intro s t hs h
  obtain ⟨-, ⟨-, rfl⟩ | ⟨ht, ⟨e, -, rfl⟩ | ⟨i, rest, -, hexec⟩⟩⟩ := step_cases h
  · exact hs
  · exact (hs.start ht).raise _
  · exact (executed_of_exec hexec).inv (hs.start ht) (by simp)

/-- Settles O20: each kind of write that an instruction makes reaches the regions of `MayWrite` alone. -/
theorem regionsHaveOnlyTheirWriters : Obligations.RegionsHaveOnlyTheirWriters := by
  intro i s t a hv hexec hne
  exact (executed_of_exec hexec).mayWrite hv hne

/-- Settles O5, by induction along both lists: the first addresses are equal, then the first bytes, then the rest. -/
theorem canonicalMemoriesReadAlikeAreEqual : Obligations.CanonicalMemoriesReadAlikeAreEqual := by
  intro m n hm hn h
  exact Memory.eq_of_read_eq hm hn h

/-- Settles O17: a dispatching step starts the engine, and an instruction leaves it so but for HALT and faults. -/
theorem engineStateTransitions : Obligations.EngineStateTransitions := by
  intro s t hs h
  obtain ⟨-, ⟨ht, -⟩ | ⟨-, ⟨e, -, rfl⟩ | ⟨i, rest, -, hexec⟩⟩⟩ := step_cases h
  · exact absurd (ht.symm.trans hs.terminal_eq) (by decide)
  · exact .inr (.inr rfl)
  · exact (executed_of_exec hexec).engine_cases

/-- Settles O21: flag writes put 0 or 1, and every other write stays clear of Region B. -/
theorem flagBytesStayBoolean : Obligations.FlagBytesStayBoolean := by
  intro s t hlimit hs h
  obtain ⟨hv, ⟨-, rfl⟩ | ⟨-, ⟨e, -, rfl⟩ | ⟨i, rest, -, hexec⟩⟩⟩ := step_cases h
  · exact hs
  · exact hs
  · exact (executed_of_exec hexec).flagBytesBoolean hv hlimit hs

/-- Settles O22: `sp` is kept or moves by 4 under the checks of push and pop. -/
theorem stackPointerStaysInStackRegion : Obligations.StackPointerStaysInStackRegion := by
  intro i s t hv hs hne hexec
  have hex := executed_of_exec hexec
  exact hs.of_moves hv hex.params_eq (hex.stackPointerMoves hv hne)

/-- Settles O1: the constructed machine is the zeroed one with `STACK_BASE` written to `sp`. -/
theorem constructionGivesResetValues : Obligations.ConstructionGivesResetValues := by
  intro p hslots hfit hmax
  have hv : p.valid = true := (Params.valid_iff p).mpr ⟨hslots, hfit, hmax⟩
  refine ⟨_, (construct_eq_some_iff p _).mpr ⟨hv, rfl⟩, rfl, rfl, rfl, ?regs, ?flags, ?bytes⟩ <;>
    rw [State.ofParams_eq hv]
  case regs =>
    intro r
    rw [State.reg_setReg]
    split_ifs
    · exact Params.toNat_stackBase hv
    · rw [State.zeroed_reg]; rfl
  case flags =>
    intro f
    rw [State.flag_setReg, State.zeroed_flag]
  case bytes =>
    intro a ha
    have hsp : ¬ InReg .sp a := by simp only [InReg, Reg.code]; omega
    rw [State.byte_setReg _ _ _ hsp, State.zeroed_byte]

/-- Settles O3: the zeroed machine meets the invariant, and the write of `sp` keeps it. -/
theorem constructedStatesMeetInvariant : Obligations.ConstructedStatesMeetInvariant := by
  refine ⟨State.ofParams_inv (by decide), fun p s h => ?_⟩
  obtain ⟨hv, rfl⟩ := (construct_eq_some_iff p s).mp h
  exact State.ofParams_inv hv

/-- Settles O10: neither test of the step stops a dispatching state, and the fetch answers the decoded instruction. -/
theorem stepRunsDecodedInstruction : Obligations.StepRunsDecodedInstruction := by
  intro s i rest hs hd
  exact step_of_decode hs.1 hs.terminal_eq hd

end Sys2Proof.Machine
end

section
/-! PROOFS. Fetch and decode (rules R69, R100 to R112): the decoder gives back an encoded instruction, and the bytes that
fetch takes from memory. -/

namespace Sys2Proof

/-! ### The decoder on an encoding -/

/-- The block an operand is encoded as, as fetch reads it back (R102). -/
def Operand.block : Operand → Block
  | .reg r => .reg (BitVec.ofNat 8 r.code)
  | .word w => .word w

theorem Reg.toNat_code (r : Reg) : (BitVec.ofNat 8 r.code).toNat = r.code := by
  have := Machine.Reg.code_lt r
  rw [BitVec.toNat_ofNat]
  omega

theorem readBlocks_encodeOperands (ops : List Operand) (offset : Nat) (rest : List Byte) :
    readBlocks (ops.map Operand.kind) offset (ops.flatMap encodeOperand ++ rest) =
      .ok (ops.map Operand.block, rest) := by
  induction ops generalizing offset with
  | nil => rfl
  | cons o ops ih =>
    cases o with
    | reg r => simp [Operand.kind, Operand.block, encodeOperand, readBlocks, ih]
    | word w => simp [Operand.kind, Operand.block, encodeOperand, readBlocks, ih]

theorem nameBlocks_block (ops : List Operand) : nameBlocks (ops.map Operand.block) = .ok ops := by
  induction ops with
  | nil => rfl
  | cons o ops ih =>
    cases o with
    | reg r => rw [List.map_cons, Operand.block, nameBlocks, Reg.toNat_code, Machine.Reg.ofCode_code, ih]
    | word w => rw [List.map_cons, Operand.block, nameBlocks, ih]

/-- A statement whose opcode byte is legal decodes, whatever follows it (R100 to R107). -/
theorem decode_encode_stmt {t : Stmt} {i : Instr} (ht : t.toInstr = some i)
    (hop : decodeOpcode (opcodeByte t.mnemonic t.form) = some (t.mnemonic, t.form)) (rest : List Byte) :
    decode (t.encode ++ rest) = .ok (i, rest) := by
  rw [Stmt.encode, List.cons_append, decode, hop]
  simp only [Stmt.form, readBlocks_encodeOperands, nameBlocks_block, ht]

theorem encodingShape : ∀ i : Instr, Laws.EncodingShape.Statement i
  | .push r => Laws.EncodingShape.push r
  | .pop r => Laws.EncodingShape.pop r
  | .movRR r src => Laws.EncodingShape.movRR r src
  | .movRW r src => Laws.EncodingShape.movRW r src
  | .load r addr => Laws.EncodingShape.load r addr
  | .store r addr => Laws.EncodingShape.store r addr
  | .addRRR dst x y => Laws.EncodingShape.addRRR dst x y
  | .addRWR dst x y => Laws.EncodingShape.addRWR dst x y
  | .addRRW dst x y => Laws.EncodingShape.addRRW dst x y
  | .addRWW dst x y => Laws.EncodingShape.addRWW dst x y
  | .subRRR dst x y => Laws.EncodingShape.subRRR dst x y
  | .subRWR dst x y => Laws.EncodingShape.subRWR dst x y
  | .subRRW dst x y => Laws.EncodingShape.subRRW dst x y
  | .subRWW dst x y => Laws.EncodingShape.subRWW dst x y
  | .mulRRR dst x y => Laws.EncodingShape.mulRRR dst x y
  | .mulRWR dst x y => Laws.EncodingShape.mulRWR dst x y
  | .mulRRW dst x y => Laws.EncodingShape.mulRRW dst x y
  | .mulRWW dst x y => Laws.EncodingShape.mulRWW dst x y
  | .divRRR dst x y => Laws.EncodingShape.divRRR dst x y
  | .divRWR dst x y => Laws.EncodingShape.divRWR dst x y
  | .divRRW dst x y => Laws.EncodingShape.divRRW dst x y
  | .divRWW dst x y => Laws.EncodingShape.divRWW dst x y
  | .modRRR dst x y => Laws.EncodingShape.modRRR dst x y
  | .modRWR dst x y => Laws.EncodingShape.modRWR dst x y
  | .modRRW dst x y => Laws.EncodingShape.modRRW dst x y
  | .modRWW dst x y => Laws.EncodingShape.modRWW dst x y
  | .jump addr => Laws.EncodingShape.jump addr
  | .jumpIfZero addr => Laws.EncodingShape.jumpIfZero addr
  | .jumpIfCarry addr => Laws.EncodingShape.jumpIfCarry addr
  | .cmpRR x y => Laws.EncodingShape.cmpRR x y
  | .cmpWR x y => Laws.EncodingShape.cmpWR x y
  | .cmpRW x y => Laws.EncodingShape.cmpRW x y
  | .cmpWW x y => Laws.EncodingShape.cmpWW x y
  | .call addr => Laws.EncodingShape.call addr
  | .ret => Laws.EncodingShape.ret
  | .test r => Laws.EncodingShape.test r
  | .nop => Laws.EncodingShape.nop
  | .halt => Laws.EncodingShape.halt
  | .syscall => Laws.EncodingShape.syscall

/-- Decoding inverts encoding, with any bytes following (R100 to R107). -/
theorem decode_encode_append (i : Instr) (rest : List Byte) : decode (encode i ++ rest) = .ok (i, rest) := by
  obtain ⟨-, htoInstr, hopcode, -⟩ := encodingShape i
  exact decode_encode_stmt htoInstr hopcode rest

theorem encode_length_le (i : Instr) : (encode i).length ≤ maxInstrLength := by
  obtain ⟨-, -, -, hlen⟩ := encodingShape i
  exact (Machine.encode_length i).trans_le hlen

namespace Machine

/-! ### The bytes that fetch takes -/

/-- Fetch reads memory in ascending address order, in any region (R69, R114). -/
theorem State.getElem?_fetchBytes (s : State) {k : Nat} (h : k < s.fetchLength) :
    s.fetchBytes[k]? = some (s.byte ((s.reg .pc).toNat + k)) := by
  have hk : k < s.fetchBytes.length := by rwa [State.fetchBytes, Memory.readBytes_length]
  rw [List.getElem?_eq_getElem hk]
  exact congrArg some (Memory.getElem_readBytes _ _ _ _ hk)

/-- An encoding that ends inside memory is among the bytes fetched. -/
theorem State.encode_length_le_fetchLength {s : State} {i : Instr}
    (h : (s.reg .pc).toNat + (encode i).length ≤ s.params.memSize) : (encode i).length ≤ s.fetchLength := by
  have hmax := encode_length_le i
  unfold State.fetchLength
  omega

/-- The encoding that lies at `pc` heads the bytes fetched. -/
theorem State.encode_heads_fetchBytes {s : State} {i : Instr}
    (hb : (s.reg .pc).toNat + (encode i).length ≤ s.params.memSize)
    (h : ∀ k, k < (encode i).length → (encode i)[k]? = some (s.byte ((s.reg .pc).toNat + k))) :
    encode i <+: s.fetchBytes := by
  have hlen := State.encode_length_le_fetchLength hb
  rw [List.prefix_iff_getElem?]
  intro k hk
  rw [State.getElem?_fetchBytes s (by omega), ← h k hk, List.getElem?_eq_getElem hk]

/-! ### The obligation -/

/-- Settles O11: the encoding at `pc` heads the bytes fetched, so they decode to the instruction. -/
theorem stepExecutesInstructionEncodedAtPc : Obligations.StepExecutesInstructionEncodedAtPc := by
  intro s i hs hb hbytes
  obtain ⟨rest, hrest⟩ := State.encode_heads_fetchBytes hb hbytes
  have hdecode : decode s.fetchBytes = .ok (i, rest) := by rw [← hrest, decode_encode_append]
  exact step_of_decode hs.1 hs.terminal_eq hdecode

end Machine
end Sys2Proof
end

section
/-! PROOFS. LOAD and STORE (rules R68, R75, R181, R182): the next state of each in each case of its address, and what a
stored word is to a later fetch. -/

namespace Sys2Proof.Machine

/-! ### The end of an instruction that does not set `pc` -/

theorem PcAfter.cursor (s u : State) (i : Instr) : PcAfter s (u.setReg .pc (s.cursor i.toStmt.form)) i :=
  (State.reg_setReg_same u .pc _).trans (State.cursor_eq s i)

theorem SameBytesBut.setReg {s u : State} {changed : Nat → Prop} (h : SameBytesBut s u changed) (r : Reg) (v : Word) :
    SameBytesBut s (u.setReg r v) (fun a => changed a ∨ InReg r a) := by
  intro a ha
  obtain ⟨hchanged, hreg⟩ := not_or.mp ha
  exact (State.byte_setReg u r v hreg).trans (h a hchanged)

theorem State.setReg_sameBytesBut (s : State) (r : Reg) (v : Word) : SameBytesBut s (s.setReg r v) (InReg r) :=
  fun _ ha => State.byte_setReg s r v ha

theorem State.withWord_sameBytesBut (s : State) (n : Nat) (v : Word) : SameBytesBut s (s.withWord n v) (InWord n) :=
  fun _ ha => State.byte_withWord s v ha

/-! ### The next state of LOAD and of STORE -/

theorem exec_load_inBounds {s : State} (r : Reg) {addr : Word} (h : addr.toNat + 4 ≤ s.params.memSize) :
    exec (.load r addr) s =
      .next ((s.setReg r (leWord (s.mem.readBytes addr.toNat 4))).setReg .pc (s.cursor [.reg, .word])) := by
  have hread := (State.memRead_ok_iff s addr.toNat _).mpr ⟨h, rfl⟩
  rw [exec, execLoad, hread]
  rfl

theorem exec_load_beyond {s : State} (r : Reg) {addr : Word} (h : s.params.memSize < addr.toNat + 4) :
    exec (.load r addr) s = .next (s.raise (.outOfBounds addr.toNat 4)) := by
  have hread := (State.memRead_error_iff s addr.toNat _).mpr ⟨h, rfl⟩
  rw [exec, execLoad, hread]
  rfl

/-- A store into general memory is accepted (R68, R182). -/
theorem exec_store_general {s : State} (r : Reg) {addr : Word} (hv : s.params.valid = true) (h : 69 ≤ addr.toNat)
    (hlimit : addr.toNat + 4 ≤ s.params.stackLimit) :
    exec (.store r addr) s =
      .next ((s.withWord addr.toNat (s.reg r)).setReg .pc (s.cursor [.reg, .word])) := by
  have hmem := Params.stackLimit_lt_memSize hv
  have hstore := (State.storeWord_ok_iff s _ addr (s.reg r)).mpr ⟨by omega, collision_of_general _ h hlimit, rfl⟩
  rw [exec, execStore, hstore]
  rfl

theorem exec_store_beyond {s : State} (r : Reg) {addr : Word} (h : s.params.memSize < addr.toNat + 4) :
    exec (.store r addr) s = .next (s.raise (.outOfBounds addr.toNat 4)) := by
  have hstore := (State.storeWord_error_iff s addr (s.reg r) _).mpr (.inl ⟨h, rfl⟩)
  rw [exec, execStore, hstore]
  rfl

/-- A store inside memory that meets a reserved region faults with the region met first (R66, R182). -/
theorem exec_store_collision {s : State} (r : Reg) {addr : Word} {region : Region}
    (h : addr.toNat + 4 ≤ s.params.memSize) (hc : collision s.params addr.toNat 4 = some region) :
    exec (.store r addr) s = .next (s.raise (.regionCollision region addr)) := by
  have hstore := (State.storeWord_error_iff s addr (s.reg r) _).mpr (.inr ⟨h, region, hc, rfl⟩)
  rw [exec, execStore, hstore]
  rfl

/-! ### A stored word, byte by byte -/

/-- The four bytes at `n` are those of the word `v`, least significant first (R63). -/
def State.HoldsWord (s : State) (n : Nat) (v : Word) : Prop :=
  ∀ a, InWord n a → (wordBytes v)[a - n]? = some (s.byte a)

theorem State.withWord_holdsWord (s : State) (n : Nat) (v : Word) : (s.withWord n v).HoldsWord n v := by
  rintro a ⟨hlow, hhigh⟩
  obtain ⟨k, rfl⟩ := Nat.exists_eq_add_of_le hlow
  have hk : k < (wordBytes v).length := by rw [wordBytes_length]; omega
  rw [Nat.add_sub_cancel_left, List.getElem?_eq_getElem hk]
  exact congrArg some (Memory.read_writeBytes_inside s.mem n k (wordBytes v) hk).symm

/-- A register write does not touch a word above Region A. -/
theorem State.HoldsWord.setReg {s : State} {n : Nat} {v : Word} (h : s.HoldsWord n v) (hn : 64 ≤ n) (r : Reg)
    (w : Word) : (s.setReg r w).HoldsWord n v := by
  intro a ha
  have hlow : 64 ≤ a := hn.trans ha.1
  rw [State.byte_setReg s r w (not_inReg_of_le hlow), h a ha]

theorem State.HoldsWord.leWord_eq {s : State} {n : Nat} {v : Word} (h : s.HoldsWord n v) :
    leWord (s.mem.readBytes n 4) = v := by
  have hbytes : s.mem.readBytes n 4 = wordBytes v := by
    apply List.ext_getElem (by simp)
    intro k hk hk'
    have hbyte := h (n + k) ⟨by omega, by simpa using hk⟩
    rw [Nat.add_sub_cancel_left, List.getElem?_eq_getElem hk', Option.some_inj] at hbyte
    rw [Memory.getElem_readBytes, hbyte]
    rfl
  rw [hbytes, leWord_wordBytes]

theorem State.HoldsWord.wordAt_eq {s : State} {n : Nat} {v : Word} (h : s.HoldsWord n v) : s.wordAt n = v.toNat := by
  rw [← State.toNat_leWord_readBytes, h.leWord_eq]

/-- Fetch takes the bytes of a word in memory where it meets them (R75). -/
theorem State.HoldsWord.fetchBytes {s : State} {n : Nat} {v : Word} (h : s.HoldsWord n v) {k : Nat}
    (hk : k < s.fetchLength) (hin : InWord n ((s.reg .pc).toNat + k)) :
    s.fetchBytes[k]? = (wordBytes v)[(s.reg .pc).toNat + k - n]? := by
  rw [State.getElem?_fetchBytes s hk, h _ hin]

/-! ### The obligations -/

/-- Settles O31: the read is in bounds, so the word read is written to `r`, then the cursor to `pc`. -/
theorem loadReadsFourBytes : Obligations.LoadReadsFourBytes := by
  intro s r addr hb
  refine ⟨_, exec_load_inBounds r hb, ?value, PcAfter.cursor s _ (.load r addr), ⟨rfl, rfl, rfl, rfl⟩,
    (State.setReg_sameBytesBut s r _).setReg .pc _⟩
  case value =>
    intro hr
    rw [State.reg_setReg_ne _ _ hr, State.reg_setReg_same, State.toNat_leWord_readBytes]

/-- Settles O32: the bounds are tested on the unbounded sum, so no address wraps. -/
theorem loadOutOfBoundsFaults : Obligations.LoadOutOfBoundsFaults := by
  intro s r addr hb
  rw [exec_load_beyond r hb]
  exact FaultsWith.raise s _

/-- Settles O33: the word lies above Region A, so the write of `pc` after it leaves it alone. -/
theorem storeWritesGeneralMemory : Obligations.StoreWritesGeneralMemory := by
  intro s r addr hv hlow hlimit
  have hholds := (State.withWord_holdsWord s addr.toNat (s.reg r)).setReg (by omega) .pc (s.cursor [.reg, .word])
  exact ⟨_, exec_store_general r hv hlow hlimit, hholds.wordAt_eq, PcAfter.cursor s _ (.store r addr),
    ⟨rfl, rfl, rfl, rfl⟩, (State.withWord_sameBytesBut s _ _).setReg .pc _⟩

/-- Settles O34: bounds come first; inside memory the region met first is read off the address. -/
theorem storeFaultsInOrder : Obligations.StoreFaultsInOrder := by
  intro s r addr
  refine ⟨?bounds, ?registers, ?flags, ?stack⟩
  case bounds =>
    intro hb
    rw [exec_store_beyond r hb]
    exact FaultsWith.raise s _
  case registers =>
    intro hb hhigh
    rw [exec_store_collision r hb (collision_of_registers _ hhigh (by decide))]
    exact FaultsWith.raise s _
  case flags =>
    intro hb hlow hhigh
    rw [exec_store_collision r hb (collision_of_flags _ hlow hhigh (by decide))]
    exact FaultsWith.raise s _
  case stack =>
    intro hb hlow hlimit
    have hbase : addr.toNat ≤ s.params.stackBase := by unfold Params.stackBase; omega
    rw [exec_store_collision r hb (collision_of_stack _ hlow hbase hlimit)]
    exact FaultsWith.raise s _

/-- Settles O35: the word survives the writes of `pc`, and fetch reads whatever memory holds. -/
theorem storeIsSeenByNextFetch : Obligations.StoreIsSeenByNextFetch := by
  intro s r addr hv hlow hlimit
  have hholds := (State.withWord_holdsWord s addr.toNat (s.reg r)).setReg (by omega) .pc (s.cursor [.reg, .word])
  refine ⟨_, exec_store_general r hv hlow hlimit, PcAfter.cursor s _ (.store r addr), fun k => hholds.fetchBytes,
    ?outside, ?anyPc⟩
  case outside =>
    intro k hk hword hpc
    rw [State.getElem?_fetchBytes _ hk, State.byte_setReg _ _ _ hpc, State.byte_withWord _ _ hword]
  case anyPc =>
    intro q k hk hin
    have hmoved := hholds.setReg (by omega) .pc q
    rw [hmoved.fetchBytes hk (by rwa [State.reg_setReg_same]), State.reg_setReg_same]

end Sys2Proof.Machine
end

section
/-! PROOFS. The decoder against the encoder (rules R100 to R109, R136): which opcode bytes are legal, what reading
operand blocks and checking register codes can answer, and that the decoder accepts encodings and nothing else. -/

namespace Sys2Proof

/-! ### Opcode bytes (R101, R104, R105) -/

theorem Mnemonic.ofOp_op (m : Mnemonic) : Mnemonic.ofOp m.op = some m := by cases m <;> rfl

theorem Mnemonic.op_ofOp {n : Nat} {m : Mnemonic} (h : Mnemonic.ofOp n = some m) : m.op = n := by
  unfold Mnemonic.ofOp at h
  split at h <;> cases h <;> rfl

theorem Mnemonic.op_lt (m : Mnemonic) : m.op < 32 := by cases m <;> decide

theorem Mnemonic.arity_le (m : Mnemonic) : m.arity ≤ 3 := by cases m <;> decide

theorem mem_allMnemonics (m : Mnemonic) : m ∈ allMnemonics := by cases m <;> decide

/-- Every legal form has as many operands as the mnemonic's arity says. -/
theorem length_of_mem_legalForms (m : Mnemonic) : ∀ f ∈ m.legalForms, f.length = m.arity := by cases m <;> decide

theorem kindBits_lt (f : Form) : kindBits f < 2 ^ f.length := by
  induction f with
  | nil => decide
  | cons k f ih => cases k <;> simp only [kindBits, List.length_cons, pow_succ] <;> omega

theorem formOfBits_kindBits (f : Form) : formOfBits f.length (kindBits f) = f := by
  induction f with
  | nil => rfl
  | cons k f ih =>
    cases k with
    | reg =>
      have hhalf : 2 * kindBits f / 2 = kindBits f := by omega
      simp [kindBits, formOfBits, hhalf, ih]
    | word =>
      have hhalf : (1 + 2 * kindBits f) / 2 = kindBits f := by omega
      simp [kindBits, formOfBits, hhalf, ih]

theorem kindBits_formOfBits {n k : Nat} (h : k < 2 ^ n) : kindBits (formOfBits n k) = k := by
  induction n generalizing k with
  | zero => rw [formOfBits, kindBits]; omega
  | succ n ih =>
    have hrest := ih (k := k / 2) (by rw [pow_succ] at h; omega)
    rw [formOfBits]
    split <;> rw [kindBits, hrest] <;> omega

/-- `OP` and `K` fill disjoint bits of the opcode byte (R101). -/
theorem toNat_opcodeByte {m : Mnemonic} {f : Form} (h : f.length = m.arity) :
    (opcodeByte m f).toNat = m.op + 32 * kindBits f := by
  have hop := m.op_lt
  have hbits : kindBits f < 2 ^ 3 :=
    (kindBits_lt f).trans_le (Nat.pow_le_pow_right (by decide) (h.trans_le m.arity_le))
  rw [opcodeByte, BitVec.toNat_ofNat]
  omega

/-- The check of the step on the opcode byte of any form with the right count of operands (R108, R112). -/
theorem decodeOpcode_opcodeByte_of_length {m : Mnemonic} {f : Form} (h : f.length = m.arity) :
    decodeOpcode (opcodeByte m f) = if m.legalForms.contains f then some (m, f) else none := by
  have hop := m.op_lt
  have hlt := kindBits_lt f
  have hlow : (m.op + 32 * kindBits f) % 32 = m.op := by omega
  have hhigh : (m.op + 32 * kindBits f) / 32 = kindBits f := by omega
  have hform := formOfBits_kindBits f
  rw [h] at hlt hform
  simp only [decodeOpcode, toNat_opcodeByte h, hlow, hhigh, Mnemonic.ofOp_op, if_neg hlt.not_ge, hform]

/-- No bit of a legal opcode byte is dropped (R101, R105). -/
theorem opcodeByte_of_decodeOpcode {b : Byte} {m : Mnemonic} {f : Form} (h : decodeOpcode b = some (m, f)) :
    b = opcodeByte m f ∧ f ∈ m.legalForms := by
  unfold decodeOpcode at h
  split at h
  · cases h
  · next m' hm =>
    split_ifs at h with hlarge hlegal
    cases h
    have hop := Mnemonic.op_ofOp hm
    have hbits : kindBits (formOfBits m.arity (b.toNat / 32)) = b.toNat / 32 := kindBits_formOfBits (by omega)
    refine ⟨BitVec.eq_of_toNat_eq ?_, by simpa using hlegal⟩
    rw [opcodeByte, hop, hbits, BitVec.toNat_ofNat]
    have := b.isLt
    omega

theorem decodeOpcode_eq_some_iff (b : Byte) (m : Mnemonic) (f : Form) :
    decodeOpcode b = some (m, f) ↔ b = opcodeByte m f ∧ f ∈ m.legalForms := by
  refine ⟨opcodeByte_of_decodeOpcode, ?_⟩
  rintro ⟨rfl, hf⟩
  exact Laws.decodeOpcode_opcodeByte m f hf

/-- The table of R105 is the catalogue's, mnemonic by mnemonic. -/
theorem legalOpcodes_eq :
    Machine.legalOpcodes = allMnemonics.flatMap (fun m => m.legalForms.map (opcodeByte m)) := by decide

theorem decodeOpcode_eq_none_iff (b : Byte) : decodeOpcode b = none ↔ b ∉ Machine.legalOpcodes := by
  rw [legalOpcodes_eq, Option.eq_none_iff_forall_ne_some]
  simp only [Prod.forall, ne_eq, decodeOpcode_eq_some_iff, List.mem_flatMap, List.mem_map, mem_allMnemonics, true_and,
    not_exists, not_and]
  exact ⟨fun h m f hf hb => h m f hb.symm hf, fun h m f hb hf => h m f hf hb.symm⟩

/-! ### Statements and instructions (R105) -/

theorem Operand.kind_eq_reg_iff {o : Operand} : o.kind = .reg ↔ ∃ r, o = .reg r := by
  cases o <;> simp [Operand.kind]

theorem Operand.kind_eq_word_iff {o : Operand} : o.kind = .word ↔ ∃ w, o = .word w := by
  cases o <;> simp [Operand.kind]

theorem length_operands {m : Mnemonic} {ops : List Operand} (h : ops.map Operand.kind ∈ m.legalForms) :
    ops.length = m.arity :=
  (List.length_map _).symm.trans (length_of_mem_legalForms m _ h)

/-- The operands of ADD, SUB, MUL, DIV and MOD: a register and any two (R190). -/
theorem exists_operands_of_arithmetic {ops : List Operand} (h : ops.map Operand.kind ∈ Mnemonic.legalForms .add) :
    ∃ dst x y, ops = [.reg dst, x, y] := by
  obtain ⟨o, x, y, rfl⟩ := List.length_eq_three.mp (length_operands h)
  cases o with
  | reg dst => exact ⟨dst, x, y, rfl⟩
  | word w => simp [Mnemonic.legalForms, Operand.kind] at h

/-- The operands of MOV: a register and any other (R180). -/
theorem exists_operands_of_mov {ops : List Operand} (h : ops.map Operand.kind ∈ Mnemonic.legalForms .mov) :
    ∃ r src, ops = [.reg r, src] := by
  obtain ⟨o, src, rfl⟩ := List.length_eq_two.mp (length_operands h)
  cases o with
  | reg r => exact ⟨r, src, rfl⟩
  | word w => simp [Mnemonic.legalForms, Operand.kind] at h

/-- A legal form has an instruction, which stands for the statement again (R105). -/
theorem Stmt.exists_toInstr {t : Stmt} (h : t.form ∈ t.mnemonic.legalForms) :
    ∃ i, t.toInstr = some i ∧ i.toStmt = t := by
  obtain ⟨m, ops⟩ := t
  cases m with
  | push | pop | test =>
    obtain ⟨r, rfl⟩ : ∃ r, ops = [.reg r] := by
      simpa [Stmt.form, Mnemonic.legalForms, List.map_eq_cons_iff, Operand.kind_eq_reg_iff] using h
    exact ⟨_, rfl, rfl⟩
  | mov =>
    obtain ⟨r, src, rfl⟩ := exists_operands_of_mov h
    exact ⟨_, rfl, by cases src <;> rfl⟩
  | load | store =>
    obtain ⟨r, w, rfl⟩ : ∃ r w, ops = [.reg r, .word w] := by
      simpa [Stmt.form, Mnemonic.legalForms, List.map_eq_cons_iff, Operand.kind_eq_reg_iff,
        Operand.kind_eq_word_iff] using h
    exact ⟨_, rfl, rfl⟩
  | add | sub | mul | div | mod =>
    obtain ⟨dst, x, y, rfl⟩ := exists_operands_of_arithmetic h
    exact ⟨_, rfl, by cases x <;> cases y <;> rfl⟩
  | jump | jumpIfZero | jumpIfCarry | call =>
    obtain ⟨w, rfl⟩ : ∃ w, ops = [.word w] := by
      simpa [Stmt.form, Mnemonic.legalForms, List.map_eq_cons_iff, Operand.kind_eq_word_iff] using h
    exact ⟨_, rfl, rfl⟩
  | cmp =>
    obtain ⟨x, y, rfl⟩ := List.length_eq_two.mp (length_operands h)
    exact ⟨_, rfl, by cases x <;> cases y <;> rfl⟩
  | ret | nop | halt | syscall =>
    obtain rfl : ops = [] := by simpa [Stmt.form, Mnemonic.legalForms] using h
    exact ⟨_, rfl, rfl⟩

/-! ### Operand blocks (R102, R112) -/

/-- The kind of a block. -/
def Block.kind : Block → Kind
  | .reg _ => .reg
  | .word _ => .word

/-- The bytes a block is fetched from (R102). -/
def Block.bytes : Block → List Byte
  | .reg b => [b]
  | .word w => wordBytes w

@[simp] theorem Operand.kind_block (o : Operand) : o.block.kind = o.kind := by cases o <;> rfl

@[simp] theorem Operand.bytes_block (o : Operand) : o.block.bytes = encodeOperand o := by cases o <;> rfl

@[simp] theorem Block.bytes_length (k : Block) : k.bytes.length = k.kind.size := by
  cases k <;> simp [Block.bytes, Block.kind, Kind.size]

theorem flatMap_bytes_length (blocks : List Block) :
    (blocks.flatMap Block.bytes).length = blocksLength (blocks.map Block.kind) := by
  induction blocks with
  | nil => rfl
  | cons k blocks ih => simp [blocksLength, ih]

/-- A block at the head of the bytes is read, then reading goes on after it (R112). -/
theorem readBlocks_cons (k : Block) (g : Form) (offset : Nat) (bs : List Byte) :
    readBlocks (k.kind :: g) offset (k.bytes ++ bs) =
      (readBlocks g (offset + k.kind.size) bs).map (fun p => (k :: p.1, p.2)) := by
  cases k with
  | reg b =>
    rw [Block.kind, Block.bytes, List.singleton_append, readBlocks, Kind.size]
    cases readBlocks g (offset + 1) bs <;> rfl
  | word w =>
    have hlong : ¬ (wordBytes w ++ bs).length < 4 := by simp
    rw [Block.kind, Block.bytes, readBlocks, if_neg hlong, List.drop_left' (wordBytes_length w),
      List.take_left' (wordBytes_length w), leWord_wordBytes, Kind.size]
    cases readBlocks g (offset + 4) bs <;> rfl

theorem readBlocks_append (blocks : List Block) (g : Form) (offset : Nat) (bs : List Byte) :
    readBlocks (blocks.map Block.kind ++ g) offset (blocks.flatMap Block.bytes ++ bs) =
      (readBlocks g (offset + blocksLength (blocks.map Block.kind)) bs).map (fun p => (blocks ++ p.1, p.2)) := by
  induction blocks generalizing offset with
  | nil => cases h : readBlocks g offset bs <;> simp [h, blocksLength, Except.map]
  | cons k blocks ih =>
    rw [List.map_cons, List.cons_append, List.flatMap_cons, List.append_assoc, readBlocks_cons, ih, blocksLength,
      Nat.add_assoc]
    cases readBlocks g (offset + (k.kind.size + blocksLength (blocks.map Block.kind))) bs <;> rfl

/-- A block of any kind is read from as many bytes as it has. -/
theorem exists_block (k : Kind) {bs : List Byte} (h : bs.length = k.size) :
    ∃ block : Block, block.kind = k ∧ block.bytes = bs := by
  cases k with
  | reg =>
    obtain ⟨b, rfl⟩ := List.length_eq_one_iff.mp h
    exact ⟨.reg b, rfl, rfl⟩
  | word => exact ⟨.word (leWord bs), rfl, wordBytes_leWord bs h⟩

/-- Enough bytes are the blocks of any form, and bytes after them. -/
theorem exists_blocks (f : Form) {bs : List Byte} (h : blocksLength f ≤ bs.length) :
    ∃ (blocks : List Block) (rest : List Byte),
      blocks.map Block.kind = f ∧ bs = blocks.flatMap Block.bytes ++ rest := by
  induction f generalizing bs with
  | nil => exact ⟨[], bs, rfl, rfl⟩
  | cons k f ih =>
    rw [blocksLength] at h
    obtain ⟨block, hkind, hbytes⟩ := exists_block k (bs := bs.take k.size) (by rw [List.length_take]; omega)
    obtain ⟨blocks, rest, hkinds, hrest⟩ := ih (bs := bs.drop k.size) (by rw [List.length_drop]; omega)
    refine ⟨block :: blocks, rest, by rw [List.map_cons, hkind, hkinds], ?_⟩
    rw [List.flatMap_cons, hbytes, List.append_assoc, ← hrest, List.take_append_drop]

theorem readBlocks_bytes (blocks : List Block) (offset : Nat) (rest : List Byte) :
    readBlocks (blocks.map Block.kind) offset (blocks.flatMap Block.bytes ++ rest) = .ok (blocks, rest) := by
  have h := readBlocks_append blocks [] offset rest
  rwa [List.append_nil, readBlocks, Except.map, List.append_nil] at h

/-- The first block that the bytes do not hold is the one reported, with its own offset and size (R112). -/
theorem readBlocks_of_short {f g : Form} {k : Kind} {bs : List Byte} (offset : Nat)
    (hf : blocksLength f ≤ bs.length) (hk : bs.length < blocksLength f + k.size) :
    readBlocks (f ++ k :: g) offset bs = .error (.truncated (offset + blocksLength f) k.size) := by
  obtain ⟨blocks, rest, rfl, rfl⟩ := exists_blocks f hf
  have hrest : rest.length < k.size := by
    rw [List.length_append, flatMap_bytes_length] at hk
    omega
  have hshort : ∀ o, readBlocks (k :: g) o rest = .error (.truncated o k.size) := by
    intro o
    cases k with
    | reg =>
      obtain rfl : rest = [] := List.length_eq_zero_iff.mp (Nat.lt_one_iff.mp hrest)
      rfl
    | word =>
      rw [readBlocks]
      exact if_pos hrest
  rw [readBlocks_append, hshort]
  rfl

theorem exists_first_short {f : Form} {n : Nat} (h : n < blocksLength f) :
    ∃ (f₁ f₂ : Form) (k : Kind),
      f = f₁ ++ k :: f₂ ∧ blocksLength f₁ ≤ n ∧ n < blocksLength f₁ + k.size := by
  induction f generalizing n with
  | nil => cases h
  | cons k f ih =>
    rw [blocksLength] at h
    by_cases hk : n < k.size
    · exact ⟨[], f, k, rfl, Nat.zero_le n, by rw [blocksLength]; omega⟩
    · obtain ⟨f₁, f₂, l, rfl, hlow, hhigh⟩ := ih (n := n - k.size) (by omega)
      exact ⟨k :: f₁, f₂, l, rfl, by rw [blocksLength]; omega, by rw [blocksLength]; omega⟩

/-- All that reading blocks can answer: the blocks at the head of the bytes, none of which is dropped, or that bytes are
wanting (R102, R112). -/
theorem readBlocks_cases (f : Form) (offset : Nat) (bs : List Byte) :
    (∃ (blocks : List Block) (rest : List Byte), bs = blocks.flatMap Block.bytes ++ rest ∧
        blocks.map Block.kind = f ∧ readBlocks f offset bs = .ok (blocks, rest)) ∨
      ∃ o n, readBlocks f offset bs = .error (.truncated o n) := by
  by_cases h : blocksLength f ≤ bs.length
  · obtain ⟨blocks, rest, rfl, rfl⟩ := exists_blocks f h
    exact .inl ⟨blocks, rest, rfl, rfl, readBlocks_bytes blocks offset rest⟩
  · obtain ⟨f₁, f₂, k, rfl, hlow, hhigh⟩ := exists_first_short (not_le.mp h)
    exact .inr ⟨_, _, readBlocks_of_short offset hlow hhigh⟩

/-- With bytes enough for every block, a register block of the form is read between the blocks before and after it. -/
theorem readBlocks_around_reg {f g : Form} {bs : List Byte} (offset : Nat)
    (h : blocksLength (f ++ .reg :: g) ≤ bs.length) :
    ∃ (before after : List Block) (b : Byte) (rest : List Byte), before.map Block.kind = f ∧
      bs = (before ++ .reg b :: after).flatMap Block.bytes ++ rest ∧
      readBlocks (f ++ .reg :: g) offset bs = .ok (before ++ .reg b :: after, rest) := by
  obtain ⟨blocks, rest, hkinds, rfl⟩ := exists_blocks _ h
  obtain ⟨before, tail, rfl, hbefore, htail⟩ := List.map_eq_append_iff.mp hkinds
  obtain ⟨block, after, rfl, hblock, -⟩ := List.map_eq_cons_iff.mp htail
  cases block with
  | word w => cases hblock
  | reg b => exact ⟨before, after, b, rest, hbefore, rfl, hkinds ▸ readBlocks_bytes _ offset rest⟩

/-! ### Register codes (R106) -/

theorem Reg.ofCode_of_gt {n : Nat} (h : 15 < n) : Reg.ofCode n = none := by
  rw [Option.eq_none_iff_forall_ne_some]
  intro r hr
  have hcode := Machine.Reg.code_ofCode hr
  have hlt := Machine.Reg.code_lt r
  omega

theorem Reg.exists_ofCode {n : Nat} (h : n ≤ 15) : ∃ r, Reg.ofCode n = some r := by
  interval_cases n <;> exact ⟨_, rfl⟩

/-- All that the check of the register codes can answer: the operands whose blocks these are, or a code that names no
register. -/
theorem nameBlocks_cases (blocks : List Block) :
    (∃ ops : List Operand, blocks = ops.map Operand.block ∧ nameBlocks blocks = .ok ops) ∨
      ∃ b, nameBlocks blocks = .error (.invalidName b) := by
  induction blocks with
  | nil => exact .inl ⟨[], rfl, rfl⟩
  | cons k blocks ih =>
    cases k with
    | reg b =>
      cases hr : Reg.ofCode b.toNat with
      | none => exact .inr ⟨b, by rw [nameBlocks, hr]⟩
      | some r =>
        obtain ⟨ops, rfl, hops⟩ | ⟨c, hc⟩ := ih
        · have hb : b = BitVec.ofNat 8 r.code := by
            rw [Machine.Reg.code_ofCode hr, BitVec.ofNat_toNat, BitVec.setWidth_eq]
          exact .inl ⟨.reg r :: ops, by rw [hb]; rfl, by rw [nameBlocks, hr, hops]⟩
        · exact .inr ⟨c, by rw [nameBlocks, hr, hc]⟩
    | word w =>
      obtain ⟨ops, rfl, hops⟩ | ⟨c, hc⟩ := ih
      · exact .inl ⟨.word w :: ops, rfl, by rw [nameBlocks, hops]⟩
      · exact .inr ⟨c, by rw [nameBlocks, hc]⟩

/-- The first register byte above 15 is the one reported. -/
theorem nameBlocks_of_bad {blocks : List Block} {b : Byte} (rest : List Block)
    (h : ∀ c, Block.reg c ∈ blocks → c.toNat ≤ 15) (hb : 15 < b.toNat) :
    nameBlocks (blocks ++ .reg b :: rest) = .error (.invalidName b) := by
  induction blocks with
  | nil => rw [List.nil_append, nameBlocks, Reg.ofCode_of_gt hb]
  | cons k blocks ih =>
    have htail := ih fun c hc => h c (List.mem_cons_of_mem _ hc)
    cases k with
    | reg c =>
      obtain ⟨r, hr⟩ := Reg.exists_ofCode (h c List.mem_cons_self)
      rw [List.cons_append, nameBlocks, hr, htail]
    | word w => rw [List.cons_append, nameBlocks, htail]

/-! ### The decoder (R112) -/

section
variable {b : Byte} {bs rest : List Byte} {m : Mnemonic} {f : Form} {blocks : List Block} {ops : List Operand}
  {e : DecodeError}

theorem decode_of_illegal (bs : List Byte) (h : decodeOpcode b = none) :
    decode (b :: bs) = .error (.illegalInstruction b) := by
  rw [decode, h]

theorem decode_of_readBlocks_error (hop : decodeOpcode b = some (m, f)) (h : readBlocks f 1 bs = .error e) :
    decode (b :: bs) = .error e := by
  simp only [decode, hop, h]

theorem decode_of_nameBlocks_error (hop : decodeOpcode b = some (m, f)) (hr : readBlocks f 1 bs = .ok (blocks, rest))
    (h : nameBlocks blocks = .error e) : decode (b :: bs) = .error e := by
  simp only [decode, hop, hr, h]

/-- A legal opcode byte and the blocks of named operands are an instruction's encoding. -/
theorem decode_of_named (hop : decodeOpcode b = some (m, f)) (hb : bs = blocks.flatMap Block.bytes ++ rest)
    (hk : blocks.map Block.kind = f) (hops : blocks = ops.map Operand.block) :
    ∃ i, b :: bs = encode i ++ rest ∧ decode (b :: bs) = .ok (i, rest) := by
  obtain ⟨rfl, hf⟩ := opcodeByte_of_decodeOpcode hop
  have hform : f = (Stmt.mk m ops).form := by simp [Stmt.form, ← hk, hops, Function.comp_def]
  obtain ⟨i, -, hstmt⟩ := Stmt.exists_toInstr (t := ⟨m, ops⟩) (hform ▸ hf)
  have hbytes : opcodeByte m f :: bs = encode i ++ rest := by
    simp [encode, hstmt, Stmt.encode, hform, hb, hops, List.flatMap_map]
  exact ⟨i, hbytes, by rw [hbytes, decode_encode_append]⟩

end

/-- All that the decoder can answer about an opcode byte and the bytes after it. -/
theorem decode_cases (b : Byte) (bs : List Byte) :
    (b ∉ Machine.legalOpcodes ∧ decode (b :: bs) = .error (.illegalInstruction b)) ∨
      (b ∈ Machine.legalOpcodes ∧
        ((∃ o n, decode (b :: bs) = .error (.truncated o n)) ∨
          (∃ c, decode (b :: bs) = .error (.invalidName c)) ∨
          ∃ i rest, b :: bs = encode i ++ rest ∧ decode (b :: bs) = .ok (i, rest))) := by
  cases hop : decodeOpcode b with
  | none => exact .inl ⟨(decodeOpcode_eq_none_iff b).mp hop, decode_of_illegal bs hop⟩
  | some p =>
    have hlegal : b ∈ Machine.legalOpcodes := by
      by_contra hb
      rw [(decodeOpcode_eq_none_iff b).mpr hb] at hop
      cases hop
    refine .inr ⟨hlegal, ?_⟩
    obtain ⟨blocks, rest, hb, hk, hr⟩ | ⟨o, n, hr⟩ := readBlocks_cases p.2 1 bs
    · obtain ⟨ops, hops, -⟩ | ⟨c, hc⟩ := nameBlocks_cases blocks
      · obtain ⟨i, hi⟩ := decode_of_named hop hb hk hops
        exact .inr (.inr ⟨i, rest, hi⟩)
      · exact .inr (.inl ⟨c, decode_of_nameBlocks_error hop hr hc⟩)
    · exact .inl ⟨o, n, decode_of_readBlocks_error hop hr⟩

theorem decode_eq_illegal_iff (b : Byte) (bs : List Byte) :
    decode (b :: bs) = .error (.illegalInstruction b) ↔ b ∉ Machine.legalOpcodes := by
  obtain ⟨hb, h⟩ | ⟨hb, ⟨o, n, h⟩ | ⟨c, h⟩ | ⟨i, rest, -, h⟩⟩ := decode_cases b bs <;> simp [h, hb]

/-- The decoder accepts encodings alone. -/
theorem eq_encode_append_of_decode {bs rest : List Byte} {i : Instr} (h : decode bs = .ok (i, rest)) :
    bs = encode i ++ rest := by
  cases bs with
  | nil => cases h
  | cons b bs =>
    obtain ⟨-, he⟩ | ⟨-, ⟨o, n, he⟩ | ⟨c, he⟩ | ⟨j, rest', hbytes, he⟩⟩ := decode_cases b bs
      <;> cases h.symm.trans he
    exact hbytes

/-- With the right count of operands, a form that is not legal has an opcode byte that is not (R108 case (c)). -/
theorem decode_encode_of_illegal {t : Stmt} (harity : t.arityOk = true) (hform : t.formOk = false) (rest : List Byte) :
    decode (t.encode ++ rest) = .error (.illegalInstruction (opcodeByte t.mnemonic t.form)) := by
  have hlen : t.form.length = t.mnemonic.arity := by
    rw [Stmt.form, List.length_map]
    exact beq_iff_eq.mp harity
  have hop : decodeOpcode (opcodeByte t.mnemonic t.form) = none := by
    rw [Stmt.formOk] at hform
    rw [decodeOpcode_opcodeByte_of_length hlen, hform]
    rfl
  exact decode_of_illegal _ hop

theorem decode_encode_of_legal {t : Stmt} (hform : t.formOk = true) (rest : List Byte) :
    ∃ i, t.toInstr = some i ∧ decode (t.encode ++ rest) = .ok (i, rest) := by
  have hlegal : t.form ∈ t.mnemonic.legalForms := List.contains_iff_mem.mp hform
  obtain ⟨i, hi, -⟩ := Stmt.exists_toInstr hlegal
  exact ⟨i, hi, decode_encode_stmt hi (Laws.decodeOpcode_opcodeByte _ _ hlegal) rest⟩

/-! ### The obligations -/

/-- Settles O6: the operand blocks of an encoding are read back one by one, and name its operands. -/
theorem decodeInvertsEncode : Obligations.DecodeInvertsEncode := decode_encode_append

/-- Settles O7: of the decoder's answers, only the encoding of an instruction is that instruction. -/
theorem decodedBytesAreTheEncoding : Obligations.DecodedBytesAreTheEncoding := fun _ _ _ => eq_encode_append_of_decode

/-- Settles O8: of the decoder's answers, only an opcode byte outside the table is an illegal instruction. -/
theorem exactlyThirtyNineOpcodesAreLegal : Obligations.ExactlyThirtyNineOpcodesAreLegal :=
  ⟨rfl, decode_eq_illegal_iff⟩

/-- Settles O59: the check of the step accepts the opcode byte of a form exactly when the form is legal. -/
theorem assembledStatementsDecodeOrAreIllegal : Obligations.AssembledStatementsDecodeOrAreIllegal :=
  fun _ rest harity => ⟨fun hform => decode_encode_of_legal hform rest,
    fun hform => decode_encode_of_illegal harity hform rest⟩

/-- Settles O9, word by word. -/
theorem writtenOutWordsDecode : Obligations.WrittenOutWordsDecode :=
  ⟨by decide, by decide, by decide, by decide, by decide, by decide, by decide⟩

end Sys2Proof
end

section
/-! PROOFS. Fetch faults and the cursor (rules R106, R109, R112 to R114, R248): which fault a step takes at a `pc` that
holds no instruction, and where `pc` stands after one that does not set it. -/

namespace Sys2Proof.Machine

/-! ### A fetch that fails -/

theorem Dispatching.faultsWith {s : State} {e : DecodeError} (h : Dispatching s) (he : decode s.fetchBytes = .error e) :
    FaultsWith s (s.decodeFault e) (step s) := by
  have hfetch : s.start.fetch = .error (s.decodeFault e) := by
    have hb : s.start.fetchBytes = s.fetchBytes := rfl
    rw [State.fetch, hb, he]
    rfl
  have hstep : step s = .next (s.start.raise (s.decodeFault e)) := by
    rw [step, if_pos h.1, h.terminal_eq, hfetch]
    rfl
  rw [hstep]
  exact ⟨_, rfl, rfl, rfl, rfl, rfl, rfl⟩

theorem State.fetchBytes_of_beyond {s : State} (h : s.params.memSize ≤ (s.reg .pc).toNat) : s.fetchBytes = [] := by
  have hlen : s.fetchLength = 0 := by unfold State.fetchLength; omega
  rw [State.fetchBytes, hlen, Memory.readBytes]

/-- The bytes fetched after the opcode byte. -/
def State.operandBytes (s : State) : List Byte := s.mem.readBytes ((s.reg .pc).toNat + 1) (s.fetchLength - 1)

theorem State.fetchBytes_eq_cons {s : State} (h : (s.reg .pc).toNat < s.params.memSize) :
    s.fetchBytes = s.byte (s.reg .pc).toNat :: s.operandBytes := by
  have hpos : 0 < s.fetchLength := by unfold State.fetchLength maxInstrLength; omega
  obtain ⟨n, hn⟩ := Nat.exists_eq_add_one.mpr hpos
  rw [State.fetchBytes, State.operandBytes, hn]
  rfl

/-- Fetch reaches the end of memory or the end of the longest instruction. -/
theorem State.operandBytes_length (s : State) :
    s.operandBytes.length = min 9 (s.params.memSize - (s.reg .pc).toNat - 1) := by
  rw [State.operandBytes, Memory.readBytes_length]
  unfold State.fetchLength maxInstrLength
  omega

/-- A register block among the operand bytes holds the byte of memory at its address. -/
theorem State.byte_of_operandBytes {s : State} {before after : List Block} {b : Byte} {rest : List Byte}
    (h : s.operandBytes = (before ++ .reg b :: after).flatMap Block.bytes ++ rest) :
    s.byte ((s.reg .pc).toNat + 1 + blocksLength (before.map Block.kind)) = b := by
  have hget : s.operandBytes[blocksLength (before.map Block.kind)]? = some b := by
    rw [h, ← flatMap_bytes_length]
    simp [Block.bytes]
  obtain ⟨hlt, hb⟩ := List.getElem?_eq_some_iff.mp hget
  rw [← hb]
  exact (Memory.getElem_readBytes _ _ _ _ hlt).symm

theorem blocksLength_append (f g : Form) : blocksLength (f ++ g) = blocksLength f + blocksLength g := by
  induction f with
  | nil => rw [List.nil_append, blocksLength, Nat.zero_add]
  | cons k f ih => rw [List.cons_append, blocksLength, blocksLength, ih, Nat.add_assoc]

/-- A legal instruction has at most nine bytes after its opcode byte (R70). -/
theorem blocksLength_le_of_decodeOpcode {b : Byte} {m : Mnemonic} {f : Form} (h : decodeOpcode b = some (m, f)) :
    blocksLength f ≤ 9 := by
  obtain ⟨-, hf⟩ := opcodeByte_of_decodeOpcode h
  have hlen := Laws.formLength_le m f hf
  unfold formLength maxInstrLength at hlen
  omega

/-! ### The obligations on fetch -/

/-- Settles O12: without an opcode byte the decoder reports it missing, and one outside the table as illegal. -/
theorem opcodeFetchFaults : Obligations.OpcodeFetchFaults := by
  intro s hs
  refine ⟨fun hpc => ?_, fun hpc hop => ?_⟩
  · have hdecode : decode s.fetchBytes = .error (.truncated 0 1) := by rw [State.fetchBytes_of_beyond hpc, decode]
    exact hs.faultsWith hdecode
  · have hdecode : decode s.fetchBytes = .error (.illegalInstruction (s.byte (s.reg .pc).toNat)) := by
      rw [State.fetchBytes_eq_cons hpc]
      exact (decode_eq_illegal_iff _ _).mpr hop
    exact hs.faultsWith hdecode

/-- Settles O13: the operand bytes end where memory does, within the block `k`. -/
theorem operandBlockBeyondMemoryFaults : Obligations.OperandBlockBeyondMemoryFaults := by
  intro s m f g k hs hpc hop hin hout
  have hmax := blocksLength_le_of_decodeOpcode hop
  rw [blocksLength_append, blocksLength] at hmax
  have hlen := s.operandBytes_length
  have hread : readBlocks (f ++ k :: g) 1 s.operandBytes = .error (.truncated (1 + blocksLength f) k.size) :=
    readBlocks_of_short 1 (by omega) (by omega)
  have hdecode : decode s.fetchBytes = .error (.truncated (1 + blocksLength f) k.size) := by
    rw [State.fetchBytes_eq_cons hpc]
    exact decode_of_readBlocks_error hop hread
  rw [Nat.add_assoc]
  exact hs.faultsWith hdecode

/-- Settles O14: every block is read, and the codes are checked in order. -/
theorem badRegisterByteFaults : Obligations.BadRegisterByteFaults := by
  intro s m f g hs hop hin hgood hbad
  have hmax := blocksLength_le_of_decodeOpcode hop
  have hlen := s.operandBytes_length
  unfold formLength at hin
  have hlong : blocksLength (f ++ .reg :: g) ≤ s.operandBytes.length := by omega
  obtain ⟨before, after, b, rest, rfl, hbytes, hread⟩ := readBlocks_around_reg 1 hlong
  have hb := State.byte_of_operandBytes hbytes
  rw [hb] at hbad ⊢
  have hcodes : ∀ c, Block.reg c ∈ before → c.toNat ≤ 15 := by
    intro c hc
    obtain ⟨p, q, rfl⟩ := List.append_of_mem hc
    rw [List.append_assoc, List.cons_append] at hbytes
    have hbyte := hgood (p.map Block.kind) (q.map Block.kind) (by rw [List.map_append]; rfl)
    rwa [State.byte_of_operandBytes hbytes] at hbyte
  have hdecode : decode s.fetchBytes = .error (.invalidName b) := by
    rw [State.fetchBytes_eq_cons (by omega)]
    exact decode_of_nameBlocks_error hop hread (nameBlocks_of_bad after hcodes hbad)
  exact hs.faultsWith hdecode

/-! ### The end of an instruction outside the control transfers (R113) -/

/-- The step of any instruction that does not set `pc` itself ends by advancing to the cursor of its own form. -/
theorem exec_eq_advance {i : Instr} (h : ¬ transfersControl i) (s : State) :
    ∃ r, exec i s = s.advance i.toStmt.form r := by
  cases i with
  | jump addr | jumpIfZero addr | jumpIfCarry addr | call addr | ret =>
    exact absurd (by simp [transfersControl, mnemonicOf, Instr.toStmt]) h
  | push r | pop r | load r addr | store r addr | syscall
  | divRRR dst x y | divRWR dst x y | divRRW dst x y | divRWW dst x y
  | modRRR dst x y | modRWR dst x y | modRRW dst x y | modRWW dst x y => exact ⟨_, rfl⟩
  | _ => exact ⟨.ok _, rfl⟩

/-- Settles O19: such an instruction faults or ends with the write of the cursor to `pc`. -/
theorem pcAdvancesByEncodedLength : Obligations.PcAdvancesByEncodedLength := by
  intro i s t _ htransfer hexec hengine
  obtain ⟨r, hr⟩ := exec_eq_advance htransfer s
  rw [hr] at hexec
  cases r with
  | ok u =>
    cases hexec
    exact PcAfter.cursor s u i
  | error c =>
    cases hexec
    exact absurd rfl hengine

end Sys2Proof.Machine
end

section
/-! PROOFS. The assembler (rules R125, R126, R135, R137): the two passes agree on sizes, labels have the address of
their last definition, and the first failing line is reported. -/

namespace Sys2Proof

/-! ### Pass 1 -/

theorem instructionBytes_cons (l : SourceLine) (ls : List SourceLine) :
    Machine.instructionBytes (l :: ls) = (if l.labelName.isNone then l.size else 0) + Machine.instructionBytes ls := by
  unfold Machine.instructionBytes
  rw [List.filter_cons]
  split_ifs <;> simp

theorem labelTable_append (addr : Nat) (before after : List SourceLine) :
    labelTable addr (before ++ after) =
      labelTable addr before ++ labelTable (addr + Machine.instructionBytes before) after := by
  induction before generalizing addr with
  | nil => rfl
  | cons l before ih =>
    rw [List.cons_append, instructionBytes_cons]
    cases h : l.labelName with
    | some name => simp [labelTable, h, ih]
    | none => simp [labelTable, h, ih, Nat.add_assoc]

/-- The names in the label table are those that lines define. -/
theorem exists_line_of_mem_labelTable {addr : Nat} {ls : List SourceLine} {p : Text × Nat}
    (h : p ∈ labelTable addr ls) : ∃ l ∈ ls, l.labelName = some p.1 := by
  induction ls generalizing addr with
  | nil => cases h
  | cons l ls ih =>
    rw [labelTable] at h
    split at h
    next name hname =>
      obtain rfl | htail := List.mem_cons.mp h
      · exact ⟨l, List.mem_cons_self, hname⟩
      · obtain ⟨k, hk, hdef⟩ := ih htail
        exact ⟨k, List.mem_cons_of_mem _ hk, hdef⟩
    next =>
      obtain ⟨k, hk, hdef⟩ := ih h
      exact ⟨k, List.mem_cons_of_mem _ hk, hdef⟩

/-- Settles O58: the table holds the definition, and after it none of that name. -/
theorem labelResolvesToLastDefinition : Obligations.LabelResolvesToLastDefinition := by
  intro origin before after l name hl hafter
  have hlater : ∀ addr, (labelTable addr after).reverse.lookup name = none := by
    intro addr
    rw [List.lookup_eq_none_iff]
    intro p hp
    obtain ⟨k, hk, hdef⟩ := exists_line_of_mem_labelTable (List.mem_reverse.mp hp)
    have hne : name ≠ p.1 := fun e => hafter k hk (e ▸ hdef)
    exact bne_iff_ne.mpr hne
  rw [labelTable_append, labelTable, hl, resolveLabel, List.reverse_append, List.reverse_cons, List.append_assoc,
    List.lookup_append, hlater]
  exact List.lookup_cons_self

/-! ### Pass 2 -/

/-- A text that begins with `#` names no register (R130). -/
theorem Reg.ofName_hash (digits : Text) : Reg.ofName ('#' :: digits) = none := by
  rw [Reg.ofName, List.find?_eq_none]
  intro r _
  cases r <;> simp [Reg.name]

/-- The block emitted for an operand has the size that pass 1 counts (R125, R135). -/
theorem operandSize_of_parseOperand {table : List (Text × Nat)} {l : SourceLine} {t : Text} {o : Operand}
    (h : parseOperand table l t = .ok o) : o.kind.size = operandSize t := by
  unfold parseOperand at h
  split at h
  next digits =>
    split at h <;> cases h
    rw [operandSize, Reg.ofName_hash]
    rfl
  next =>
    split at h
    next r hr =>
      cases h
      rw [operandSize, hr]
      rfl
    next hr =>
      rw [operandSize, hr]
      split_ifs at h
      split at h <;> cases h
      rfl

theorem operandSizes_of_parseOperands {table : List (Text × Nat)} {l : SourceLine} {texts : List Text}
    {ops : List Operand} (h : parseOperands table l texts = .ok ops) :
    blocksLength (ops.map Operand.kind) = (texts.map operandSize).sum := by
  induction texts generalizing ops with
  | nil => cases h; rfl
  | cons t texts ih =>
    rw [parseOperands] at h
    cases ho : parseOperand table l t with
    | error e => rw [ho] at h; cases h
    | ok o =>
      cases hos : parseOperands table l texts with
      | error e => rw [ho, hos] at h; cases h
      | ok os =>
        rw [ho, hos] at h
        cases h
        rw [List.map_cons, blocksLength, operandSize_of_parseOperand ho, ih hos, List.map_cons, List.sum_cons]

/-- A line's bytes are as many as pass 1 counts (R135). -/
theorem encode_length_of_parseLine {table : List (Text × Nat)} {l : SourceLine} {stmt : Stmt}
    (h : parseLine table l = .ok stmt) : stmt.encode.length = l.size := by
  simp only [parseLine] at h
  split at h
  · cases h
  · split_ifs at h
    split at h
    · cases h
    · next ops hops =>
      cases h
      rw [Machine.Stmt.encode_length, formLength, Stmt.form, operandSizes_of_parseOperands hops, SourceLine.size]

/-- All that a successful assembly of a line and those after it can be (R135). -/
theorem encodeBody_cons_ok {table : List (Text × Nat)} {l : SourceLine} {ls : List SourceLine} {bytes : List Byte}
    (h : encodeBody table (l :: ls) = .ok bytes) :
    ((∃ name, l.labelName = some name) ∧ encodeBody table ls = .ok bytes) ∨
      (l.labelName = none ∧ ∃ stmt tail, parseLine table l = .ok stmt ∧ encodeBody table ls = .ok tail ∧
        bytes = stmt.encode ++ tail) := by
  rw [encodeBody] at h
  cases hl : l.labelName with
  | some name => rw [hl] at h; exact .inl ⟨⟨name, rfl⟩, h⟩
  | none =>
    rw [hl] at h
    cases hline : parseLine table l with
    | error e => rw [hline] at h; cases h
    | ok stmt =>
      cases htail : encodeBody table ls with
      | error e => rw [hline, htail] at h; cases h
      | ok tail =>
        rw [hline, htail] at h
        cases h
        exact .inr ⟨rfl, stmt, tail, rfl, rfl, rfl⟩

theorem encodeBody_length {table : List (Text × Nat)} {ls : List SourceLine} {bytes : List Byte}
    (h : encodeBody table ls = .ok bytes) : bytes.length = Machine.instructionBytes ls := by
  induction ls generalizing bytes with
  | nil => cases h; rfl
  | cons l ls ih =>
    rw [instructionBytes_cons]
    obtain ⟨⟨name, hl⟩, htail⟩ | ⟨hl, stmt, tail, hline, htail, rfl⟩ := encodeBody_cons_ok h
    · simp [hl, ih htail]
    · simp [hl, encode_length_of_parseLine hline, ih htail]

/-! ### The obligations on pass 2 -/

/-- Settles O57: each line's bytes are as many as its size. -/
theorem assembledLengthIsSumOfSizes : Obligations.AssembledLengthIsSumOfSizes := by
  intro lines origin body bytes hbody h
  rw [assemble, hbody] at h
  exact encodeBody_length h

/-- Settles O60, by induction on the lines before the failing one. -/
theorem firstFailingLineIsReported : Obligations.FirstFailingLineIsReported := by
  intro table before after l e bytes hbefore hl he
  induction before generalizing bytes with
  | nil => rw [List.nil_append, encodeBody, hl, he]
  | cons k before ih =>
    rw [List.cons_append, encodeBody]
    obtain ⟨⟨name, hk⟩, htail⟩ | ⟨hk, stmt, tail, hline, htail, -⟩ := encodeBody_cons_ok hbefore
    · rw [hk]
      exact ih _ htail
    · rw [hk, hline, ih _ htail]

end Sys2Proof
end

section
/-! PROOFS. The stack (rules R170 to R172, R213, R214): the one next state of an accepted push, shared by PUSH and CALL,
the word that an accepted pop takes, shared by POP and RET, and the refusals of both in the order R248 gives. -/

namespace Sys2Proof.Machine

/-! ### When a push is accepted -/

/-- Legal parameters, a free slot, and the slot inside memory: what a push needs to be accepted (R171). -/
def State.CanPush (s : State) : Prop :=
  s.params.valid = true ∧ s.params.stackLimit < (s.reg .sp).toNat ∧ (s.reg .sp).toNat ≤ s.params.memSize

/-- The decremented `sp` does not wrap. -/
theorem State.CanPush.toNat_sub_four {s : State} (h : s.CanPush) : (s.reg .sp - 4).toNat = (s.reg .sp).toNat - 4 := by
  obtain ⟨hv, hlimit, -⟩ := h
  have hsub := Machine.toNat_sub_four hv hlimit
  omega

/-- The word that a push writes lies above Region A, since `STACK_LIMIT` is at least 69. -/
theorem State.CanPush.le_slot {s : State} (h : s.CanPush) : 64 ≤ (s.reg .sp).toNat - 4 := by
  obtain ⟨hv, hlimit, -⟩ := h
  have hlow := Params.le_stackLimit hv
  omega

/-! ### The next state of an accepted PUSH or CALL -/

/-- The state with `v` pushed, without any check, and then `pc` set: how PUSH and CALL both end. -/
def State.afterPush (s : State) (v target : Word) : State :=
  ((s.withWord (s.reg .sp - 4).toNat v).setReg .sp (s.reg .sp - 4)).setReg .pc target

theorem State.CanPush.pushWord_eq {s : State} (h : s.CanPush) (v : Word) :
    s.pushWord v = .ok ((s.withWord (s.reg .sp - 4).toNat v).setReg .sp (s.reg .sp - 4)) := by
  have hsub := h.toNat_sub_four
  have hlow := h.le_slot
  obtain ⟨-, hlimit, hmem⟩ := h
  exact (State.pushWord_ok_iff s _ v).mpr ⟨hlimit, by omega, rfl⟩

/-- The value that PUSH stores: `sp` is read after the decrement (R171). -/
def State.pushValue (s : State) (r : Reg) : Word := if r = .sp then s.reg .sp - 4 else s.reg r

theorem State.CanPush.exec_push {s : State} (h : s.CanPush) (r : Reg) :
    exec (.push r) s = .next (s.afterPush (s.pushValue r) (s.cursor [.reg])) := by
  rw [exec, execPush, ← State.pushValue, h.pushWord_eq]
  rfl

/-- The return address that CALL pushes (R213). -/
theorem State.cursor_call (s : State) : s.cursor [.word] = s.reg .pc + 5 := rfl

theorem State.CanPush.exec_call {s : State} (h : s.CanPush) (addr : Word) :
    exec (.call addr) s = .next (s.afterPush (s.cursor [.word]) addr) := by
  rw [exec, execCall, h.pushWord_eq]
  rfl

theorem State.CanPush.toNat_pushValue {s : State} (h : s.CanPush) (r : Reg) :
    (s.pushValue r).toNat = if r = .sp then (s.reg .sp).toNat - 4 else (s.reg r).toNat := by
  rw [State.pushValue, apply_ite BitVec.toNat, h.toNat_sub_four]

@[simp] theorem State.afterPush_reg_pc (s : State) (v target : Word) : (s.afterPush v target).reg .pc = target :=
  State.reg_setReg_same _ _ _

@[simp] theorem State.afterPush_reg_sp (s : State) (v target : Word) :
    (s.afterPush v target).reg .sp = s.reg .sp - 4 :=
  (State.reg_setReg_ne _ _ (by decide)).trans (State.reg_setReg_same _ _ _)

@[simp] theorem State.afterPush_params (s : State) (v target : Word) : (s.afterPush v target).params = s.params := rfl

/-- A register write changes memory alone. -/
theorem SameControl.setReg {s u : State} (h : SameControl s u) (r : Reg) (v : Word) : SameControl s (u.setReg r v) := h

theorem State.afterPush_sameControl (s : State) (v target : Word) : SameControl s (s.afterPush v target) :=
  ⟨rfl, rfl, rfl, rfl⟩

theorem State.CanPush.afterPush_holdsWord {s : State} (h : s.CanPush) (v target : Word) :
    (s.afterPush v target).HoldsWord ((s.reg .sp).toNat - 4) v := by
  rw [State.afterPush, h.toNat_sub_four]
  exact ((s.withWord_holdsWord _ v).setReg h.le_slot _ _).setReg h.le_slot _ _

theorem State.CanPush.afterPush_sameBytesBut {s : State} (h : s.CanPush) (v target : Word) :
    SameBytesBut s (s.afterPush v target)
      (fun a => InWord ((s.reg .sp).toNat - 4) a ∨ InReg .sp a ∨ InReg .pc a) := by
  simp only [← or_assoc]
  rw [State.afterPush, h.toNat_sub_four]
  exact ((s.withWord_sameBytesBut _ v).setReg .sp _).setReg .pc _

/-! ### The next state of an accepted POP or RET -/

/-- The stack holds a word inside memory: what a pop needs to be accepted (R172). -/
def State.CanPop (s : State) : Prop :=
  (s.reg .sp).toNat < s.params.stackBase ∧ (s.reg .sp).toNat + 4 ≤ s.params.memSize

/-- The word at `sp`. -/
def State.top (s : State) : Word := leWord (s.mem.readBytes (s.reg .sp).toNat 4)

theorem State.toNat_top (s : State) : s.top.toNat = s.wordAt (s.reg .sp).toNat := s.toNat_leWord_readBytes _

theorem State.CanPop.topWord_eq {s : State} (h : s.CanPop) : s.topWord = .ok s.top := by
  obtain ⟨hbase, hmem⟩ := h
  exact (State.topWord_ok_iff s _).mpr ⟨hbase, hmem, rfl⟩

theorem State.CanPop.exec_pop {s : State} (h : s.CanPop) (r : Reg) :
    exec (.pop r) s =
      .next (((s.setReg r s.top).setReg .sp ((s.setReg r s.top).reg .sp + 4)).setReg .pc (s.cursor [.reg])) := by
  rw [exec, execPop, h.topWord_eq]
  rfl

theorem State.CanPop.exec_ret {s : State} (h : s.CanPop) :
    exec .ret s = .next ((s.setReg .sp (s.reg .sp + 4)).setReg .pc s.top) := by
  rw [exec, execRet, h.topWord_eq]
  rfl

/-- After a push inside the stack region, the pushed word is there to pop (R170). -/
theorem State.CanPush.afterPush_canPop {s : State} (h : s.CanPush) (hbase : (s.reg .sp).toNat ≤ s.params.stackBase)
    (v target : Word) : (s.afterPush v target).CanPop := by
  have hlow := h.le_slot
  have hsub := h.toNat_sub_four
  obtain ⟨-, -, hmem⟩ := h
  rw [State.CanPop, State.afterPush_reg_sp, State.afterPush_params, hsub]
  omega

theorem State.CanPush.top_afterPush {s : State} (h : s.CanPush) (v target : Word) :
    (s.afterPush v target).top = v := by
  rw [State.top, State.afterPush_reg_sp, h.toNat_sub_four]
  exact (h.afterPush_holdsWord v target).leWord_eq

/-! ### Refusals -/

theorem faultsWith_of_pushWord_error {s : State} {c : FaultCause} (h : ∀ v, s.pushWord v = .error c) (r : Reg)
    (addr : Word) : FaultsWith s c (exec (.push r) s) ∧ FaultsWith s c (exec (.call addr) s) := by
  rw [exec, execPush, h, exec, execCall, h]
  exact ⟨FaultsWith.raise s c, FaultsWith.raise s c⟩

theorem faultsWith_of_topWord_error {s : State} {c : FaultCause} (h : s.topWord = .error c) (r : Reg) :
    FaultsWith s c (exec (.pop r) s) ∧ FaultsWith s c (exec .ret s) := by
  rw [exec, execPop, h, exec, execRet, h]
  exact ⟨FaultsWith.raise s c, FaultsWith.raise s c⟩

theorem State.pushWord_of_full {s : State} (h : (s.reg .sp).toNat ≤ s.params.stackLimit) (v : Word) :
    s.pushWord v = .error (.stackOverflow (s.reg .sp)) :=
  (State.pushWord_error_iff s v _).mpr (.inl ⟨h, rfl⟩)

theorem State.pushWord_of_beyond {s : State} (hv : s.params.valid = true)
    (h : s.params.memSize < (s.reg .sp).toNat) (v : Word) :
    s.pushWord v = .error (.outOfBounds ((s.reg .sp).toNat - 4) 4) := by
  have hlimit : s.params.stackLimit < (s.reg .sp).toNat := (Params.stackLimit_lt_memSize hv).trans h
  have hsub := toNat_sub_four hv hlimit
  have haddr : (s.reg .sp).toNat - 4 = (s.reg .sp - 4).toNat := by omega
  rw [haddr]
  exact (State.pushWord_error_iff s v _).mpr (.inr ⟨hlimit, by omega, rfl⟩)

/-! ### Pushes in a row -/

theorem execTimes_succ {i : Instr} {s t : State} (h : exec i s = .next t) (k : Nat) :
    execTimes i (k + 1) s = execTimes i k t := by
  rw [execTimes, h]

/-- While there is room above `STACK_LIMIT` for `k` words, `k` pushes are accepted (R170). -/
theorem execTimes_push {s : State} (r : Reg) {k : Nat} (hv : s.params.valid = true)
    (hroom : s.params.stackLimit + 4 * k ≤ (s.reg .sp).toNat) (hmem : (s.reg .sp).toNat ≤ s.params.memSize) :
    ∃ t, execTimes (.push r) k s = some t ∧ SameControl s t ∧ (t.reg .sp).toNat = (s.reg .sp).toNat - 4 * k := by
  induction k generalizing s with
  | zero => exact ⟨s, rfl, ⟨rfl, rfl, rfl, rfl⟩, rfl⟩
  | succ k ih =>
    have h : s.CanPush := ⟨hv, by omega, hmem⟩
    have hsp : ((s.afterPush (s.pushValue r) (s.cursor [.reg])).reg .sp).toNat = (s.reg .sp).toNat - 4 := by
      rw [State.afterPush_reg_sp, h.toNat_sub_four]
    obtain ⟨t, hrun, hcontrol, ht⟩ := ih (s := s.afterPush (s.pushValue r) (s.cursor [.reg])) hv
      (by rw [hsp, State.afterPush_params]; omega) (by rw [hsp, State.afterPush_params]; omega)
    exact ⟨t, (execTimes_succ (h.exec_push r) k).trans hrun, hcontrol, by omega⟩

theorem State.toNat_reg_sp_ofParams {p : Params} (h : p.valid = true) :
    ((State.ofParams p).reg .sp).toNat = p.stackBase := by
  rw [State.ofParams_eq h, State.reg_setReg_same, Params.toNat_stackBase h]

/-- The pushes that R170 counts, from the constructed machine once it runs. -/
theorem execTimes_push_start {p : Params} (r : Reg) {k : Nat} (hv : p.valid = true) (hk : k ≤ p.stackSlots) :
    ∃ t, execTimes (.push r) k (State.ofParams p).start = some t ∧ SameControl (State.ofParams p).start t ∧
      (t.reg .sp).toNat = p.stackBase - 4 * k := by
  have hlimit := Params.stackLimit_add hv
  have hmem := Params.stackBase_succ hv
  have hsp : ((State.ofParams p).start.reg .sp).toNat = p.stackBase := State.toNat_reg_sp_ofParams hv
  rw [← hsp]
  exact execTimes_push r hv (by rw [hsp, State.start_params, State.ofParams_params]; omega)
    (by rw [hsp, State.start_params, State.ofParams_params]; omega)

/-! ### The obligations -/

/-- Settles O24: the pushed word lies above Region A, so the writes of `sp` and `pc` after it leave it alone. -/
theorem pushStoresWordAtNewSp : Obligations.PushStoresWordAtNewSp := by
  intro s r hv hlimit hmem
  have h : s.CanPush := ⟨hv, hlimit, hmem⟩
  refine ⟨_, h.exec_push r, ?sp, ?word, PcAfter.cursor s _ (.push r), s.afterPush_sameControl _ _,
    h.afterPush_sameBytesBut _ _⟩
  case sp => rw [State.afterPush_reg_sp, h.toNat_sub_four]
  case word => rw [(h.afterPush_holdsWord _ _).wordAt_eq, h.toNat_pushValue]

/-- Settles O25: the limit is tested first, and no `sp` beyond memory is at the limit. -/
theorem pushAndCallFaults : Obligations.PushAndCallFaults := by
  intro s r addr hv
  exact ⟨fun hfull => faultsWith_of_pushWord_error (State.pushWord_of_full hfull) r addr,
    fun hbeyond => faultsWith_of_pushWord_error (State.pushWord_of_beyond hv hbeyond) r addr⟩

/-- Settles O26: `sp` is read again after the write of `r`, so 4 is added to the loaded word when `r` is `sp`. -/
theorem popLoadsWordAtSp : Obligations.PopLoadsWordAtSp := by
  intro s r hbase hmem
  have h : s.CanPop := ⟨hbase, hmem⟩
  refine ⟨_, h.exec_pop r, ?sp, ?value, PcAfter.cursor s _ (.pop r), ⟨rfl, rfl, rfl, rfl⟩, ?bytes⟩
  case sp =>
    rw [State.reg_setReg_ne _ _ (by decide), State.reg_setReg_same, State.reg_setReg, BitVec.toNat_add,
      apply_ite BitVec.toNat, State.toNat_top]
    simp only [eq_comm (a := Reg.sp)]
    rfl
  case value =>
    intro hsp hpc
    rw [State.reg_setReg_ne _ _ hpc, State.reg_setReg_ne _ _ hsp, State.reg_setReg_same, State.toNat_top]
  case bytes =>
    simp only [← or_assoc]
    exact ((s.setReg_sameBytesBut r _).setReg .sp _).setReg .pc _

/-- Settles O27: the empty stack is tested first, then the bounds of the word at `sp`. -/
theorem popAndRetFaults : Obligations.PopAndRetFaults := by
  intro s r
  refine ⟨fun hempty => ?_, fun hbase hbeyond => ?_⟩
  · exact faultsWith_of_topWord_error ((State.topWord_error_iff s _).mpr (.inl ⟨hempty, rfl⟩)) r
  · exact faultsWith_of_topWord_error ((State.topWord_error_iff s _).mpr (.inr ⟨hbase, hbeyond, rfl⟩)) r

/-- Settles O28: the stack region is `4 * STACK_SLOTS` bytes above `STACK_LIMIT`, where the next push is refused. -/
theorem stackHoldsExactlyStackSlots : Obligations.StackHoldsExactlyStackSlots := by
  intro p r hv
  refine ⟨fun k hk => ?_, ?_⟩
  · obtain ⟨t, hrun, ⟨-, hengine, -, -⟩, hsp⟩ := execTimes_push_start r hv hk
    exact ⟨t, hrun, hengine, hsp⟩
  · obtain ⟨t, hrun, ⟨hparams, -, -, -⟩, hsp⟩ := execTimes_push_start r hv le_rfl
    have hlimit := Params.stackLimit_add hv
    have hfull : (t.reg .sp).toNat ≤ t.params.stackLimit := by
      rw [hparams, State.start_params, State.ofParams_params]
      omega
    exact ⟨t, hrun, (faultsWith_of_pushWord_error (State.pushWord_of_full hfull) r 0).1⟩

/-- Settles O29: the pop takes the word that the push left at `sp`, and adds back the 4 that the push took off. -/
theorem pushThenPopRestores : Obligations.PushThenPopRestores := by
  intro s r q hv hlimit hbase hqsp hqpc
  have hmem := Params.stackBase_succ hv
  have h : s.CanPush := ⟨hv, hlimit, by omega⟩
  refine ⟨_, _, h.exec_push r, (h.afterPush_canPop hbase _ _).exec_pop q, ?value, ?sp, ?control⟩
  case value =>
    rw [State.reg_setReg_ne _ _ hqpc, State.reg_setReg_ne _ _ hqsp, State.reg_setReg_same, h.top_afterPush]
    rfl
  case sp =>
    rw [State.reg_setReg_ne _ _ (by decide), State.reg_setReg_same, State.reg_setReg_ne _ _ hqsp.symm,
      State.afterPush_reg_sp, BitVec.sub_add_cancel]
  case control => exact (((s.afterPush_sameControl _ _).setReg q _).setReg .sp _).setReg .pc _

/-- Settles O49: the cursor of a CALL, five bytes after it, is the word pushed. -/
theorem callPushesReturnAddress : Obligations.CallPushesReturnAddress := by
  intro s addr hv hlimit hmem
  have h : s.CanPush := ⟨hv, hlimit, hmem⟩
  refine ⟨_, h.exec_call addr, s.afterPush_reg_pc _ _, ?sp, ?word,
    s.afterPush_sameControl _ _, h.afterPush_sameBytesBut _ _⟩
  case sp => rw [State.afterPush_reg_sp, h.toNat_sub_four]
  case word => rw [(h.afterPush_holdsWord _ _).wordAt_eq, State.cursor_call]

/-- Settles O50: the word is read before `sp` and `pc` are written. -/
theorem retPopsIntoPc : Obligations.RetPopsIntoPc := by
  intro s hbase hmem
  have h : s.CanPop := ⟨hbase, hmem⟩
  refine ⟨_, h.exec_ret, ?pc, ?sp, ⟨rfl, rfl, rfl, rfl⟩, (s.setReg_sameBytesBut .sp _).setReg .pc _⟩
  case pc => rw [State.reg_setReg_same, State.toNat_top]
  case sp => rw [State.reg_setReg_ne _ _ (by decide), State.reg_setReg_same]

end Sys2Proof.Machine
end

section
/-! PROOFS. MOV (rule R180): the one next state of both forms. -/

namespace Sys2Proof.Machine

/-- Neither form can fault: the resolved value goes to `r`, then the cursor to `pc` (R113, R180). -/
theorem exec_mov_eq_next (s : State) (r : Reg) (src : Operand) :
    exec (.mov r src) s =
      .next ((s.setReg r (s.val src)).setReg .pc (s.cursor (Instr.mov r src).toStmt.form)) :=
  exec_mov s r src

/-- Settles O30: two register writes, to `r` and to `pc`, are all that a MOV does; the second hides the first only when
`r` is `pc`. -/
theorem movCopiesSource : Obligations.MovCopiesSource := by
  intro s r src
  refine ⟨_, exec_mov_eq_next s r src, ?value, PcAfter.cursor s _ (.mov r src), ⟨rfl, rfl, rfl, rfl⟩,
    (State.setReg_sameBytesBut s r _).setReg .pc _⟩
  case value =>
    intro hr
    rw [State.reg_setReg_ne _ _ hr, State.reg_setReg_same]

end Sys2Proof.Machine
end

section
/-! PROOFS. ADD, SUB, MUL, DIV, MOD and CMP (rules R190 to R197, R200): the flag functions as arithmetic on numbers, and
the one next state of each instruction, which ADD and SUB share, and MUL, DIV and MOD. -/

namespace Sys2Proof.Machine

/-! ### The flag functions as arithmetic on numbers (R191 to R193) -/

theorem word_eq_zero_iff (r : Word) : r = 0 ↔ r.toNat = 0 := BitVec.toNat_inj.symm

theorem word_msb_iff (r : Word) : r.msb = true ↔ 2 ^ 31 ≤ r.toNat := by
  rw [BitVec.msb_eq_decide, decide_eq_true_iff]

/-- `PF` counts bits 0 to 7 of the result (R191): the bits of its low byte are those of the whole word. -/
theorem parityEven_iff (r : Word) :
    parityEven r = true ↔ ((List.range 8).filter (fun k => r.toNat.testBit k)).length % 2 = 0 := by
  have hbit : ∀ k ∈ List.range 8, (r.extractLsb' 0 8).getLsbD k = r.toNat.testBit k := by
    intro k hk
    simp [List.mem_range.mp hk, BitVec.testBit_toNat]
  rw [parityEven, popcount, List.filter_congr hbit, beq_iff_eq]

theorem not_fitsSigned_iff (n : Int) : (!fitsSigned n) = true ↔ OutOfSigned n := by
  simp only [fitsSigned, OutOfSigned, Bool.not_eq_true', Bool.and_eq_false_iff, decide_eq_false_iff_not]
  omega

theorem addCarry_iff (x y : Word) : addCarry x y = true ↔ 0xFFFFFFFF < x.toNat + y.toNat := decide_eq_true_iff

theorem subBorrow_iff (x y : Word) : subBorrow x y = true ↔ x.toNat < y.toNat := decide_eq_true_iff

theorem addOverflow_iff (x y : Word) : addOverflow x y = true ↔ OutOfSigned (x.toInt + y.toInt) := not_fitsSigned_iff _

theorem subOverflow_iff (x y : Word) : subOverflow x y = true ↔ OutOfSigned (x.toInt - y.toInt) := not_fitsSigned_iff _

/-- The difference modulo 2^32, written without a negative number (R193). -/
theorem toNat_sub_word (x y : Word) : (x - y).toNat = (x.toNat + 2 ^ 32 - y.toNat) % 2 ^ 32 := by
  rw [BitVec.toNat_sub, ← Nat.sub_add_comm y.isLt.le, Nat.add_comm]

/-! ### Overflow by bits (R192, R193) -/

theorem addOverflow_eq_saddOverflow (x y : Word) : addOverflow x y = x.saddOverflow y := by
  rw [Bool.eq_iff_iff, addOverflow_iff, OutOfSigned, BitVec.saddOverflow, Bool.or_eq_true, decide_eq_true_iff,
    decide_eq_true_iff]
  exact Or.comm

theorem subOverflow_eq_ssubOverflow (x y : Word) : subOverflow x y = x.ssubOverflow y := by
  rw [Bool.eq_iff_iff, subOverflow_iff, OutOfSigned, BitVec.ssubOverflow, Bool.or_eq_true, decide_eq_true_iff,
    decide_eq_true_iff]
  exact Or.comm

/-- A sum overflows when its sign differs from the sign of both operands. -/
theorem addOverflow_eq_msb (x y : Word) : addOverflow x y = ((x ^^^ (x + y)) &&& (y ^^^ (x + y))).msb := by
  rw [addOverflow_eq_saddOverflow, BitVec.saddOverflow_eq, BitVec.msb_and, BitVec.msb_xor, BitVec.msb_xor]
  generalize x.msb = a, y.msb = b, (x + y).msb = c
  revert a b c
  decide

/-- A difference overflows when the operands' signs differ and its sign is not the minuend's. -/
theorem subOverflow_eq_msb (x y : Word) : subOverflow x y = ((x ^^^ y) &&& (x ^^^ (x - y))).msb := by
  rw [subOverflow_eq_ssubOverflow, BitVec.ssubOverflow_eq, BitVec.msb_and, BitVec.msb_xor, BitVec.msb_xor]
  generalize x.msb = a, y.msb = b, (x - y).msb = c
  revert a b c
  decide

/-! ### The flag writes as a claim states them -/

theorem State.setFlags5_hasFlags5 (s : State) (r : Word) {c v : Bool} {C V : Prop} (hc : c = true ↔ C)
    (hv : v = true ↔ V) : HasFlags5 (s.setFlags5 r c v) r.toNat C V := by
  simp only [HasFlags5, State.flag_setFlags5, beq_iff_eq]
  exact ⟨word_eq_zero_iff r, hc, hv, word_msb_iff r, parityEven_iff r⟩

theorem State.setFlagsZS_hasFlagsZS (s : State) (r : Word) : HasFlagsZS s (s.setFlagsZS r) r.toNat := by
  simp only [HasFlagsZS, State.flag_setFlagsZS, beq_iff_eq, and_true]
  exact ⟨word_eq_zero_iff r, word_msb_iff r⟩

theorem HasFlags5.setReg {t : State} {R : Nat} {c v : Prop} (h : HasFlags5 t R c v) (q : Reg) (w : Word) :
    HasFlags5 (t.setReg q w) R c v := by
  simpa only [HasFlags5, State.flag_setReg] using h

theorem State.setFlagsZS_sameBytesBut (s : State) (r : Word) : SameBytesBut s (s.setFlagsZS r) InZeroOrSign :=
  fun _ ha => State.byte_setFlagsZS s r ha

/-- A result register, some flags and `pc` are all that an arithmetic instruction writes. -/
theorem SameBytesBut.between_setReg {s u : State} {dst : Reg} {v : Word} {flags : Nat → Prop}
    (h : SameBytesBut (s.setReg dst v) u flags) (w : Word) :
    SameBytesBut s (u.setReg .pc w) (fun a => InReg dst a ∨ InReg .pc a ∨ flags a) := by
  intro a ha
  obtain ⟨hdst, hpc, hflags⟩ : ¬ InReg dst a ∧ ¬ InReg .pc a ∧ ¬ flags a := by simpa only [not_or] using ha
  calc (u.setReg .pc w).byte a
      _ = u.byte a := State.byte_setReg u .pc w hpc
      _ = (s.setReg dst v).byte a := h a hflags
      _ = s.byte a := State.byte_setReg s dst v hdst

/-! ### The next state of ADD and of SUB -/

/-- The state after an instruction that gives `r` to `dst`, writes all five flags and ends at the cursor (R113, R191). -/
def State.afterResult5 (s : State) (i : Instr) (dst : Reg) (r : Word) (c v : Bool) : State :=
  ((s.setReg dst r).setFlags5 r c v).setReg .pc (s.cursor i.toStmt.form)

theorem exec_add_eq_next (s : State) (dst : Reg) (x y : Operand) :
    exec (.add dst x y) s =
      .next (s.afterResult5 (.add dst x y) dst (s.val x + s.val y) (addCarry (s.val x) (s.val y))
        (addOverflow (s.val x) (s.val y))) := by
  rw [exec_add, State.addTo_eq, State.advance_ok, State.afterResult5]

theorem exec_sub_eq_next (s : State) (dst : Reg) (x y : Operand) :
    exec (.sub dst x y) s =
      .next (s.afterResult5 (.sub dst x y) dst (s.val x - s.val y) (subBorrow (s.val x) (s.val y))
        (subOverflow (s.val x) (s.val y))) := by
  rw [exec_sub, State.subTo_eq, State.advance_ok, State.afterResult5]

section
variable (s : State) (i : Instr) {dst : Reg} (r : Word) {c v : Bool}

theorem State.afterResult5_reg (h : dst ≠ .pc) : (s.afterResult5 i dst r c v).reg dst = r := by
  rw [State.afterResult5, State.reg_setReg_ne _ _ h, State.reg_setFlags5, State.reg_setReg_same]

theorem State.afterResult5_ovf : (s.afterResult5 i dst r c v).flag .ovf = v := by
  rw [State.afterResult5, State.flag_setReg, State.flag_setFlags5]

/-- All that ADD and SUB claim of their next state, with the result and the two range conditions named as numbers. -/
theorem State.afterResult5_spec {R : Nat} {C V : Prop} (hR : r.toNat = R) (hc : c = true ↔ C) (hv : v = true ↔ V) :
    (dst ≠ .pc → ((s.afterResult5 i dst r c v).reg dst).toNat = R) ∧ HasFlags5 (s.afterResult5 i dst r c v) R C V ∧
      PcAfter s (s.afterResult5 i dst r c v) i ∧ SameControl s (s.afterResult5 i dst r c v) ∧
      SameBytesBut s (s.afterResult5 i dst r c v) (fun a => InReg dst a ∨ InReg .pc a ∨ InFlags a) := by
  subst hR
  refine ⟨?value, ?flags, PcAfter.cursor s _ i, ⟨rfl, rfl, rfl, rfl⟩, ?frame⟩
  case value => exact fun h => congrArg BitVec.toNat (s.afterResult5_reg i r h)
  case flags => exact (State.setFlags5_hasFlags5 _ r hc hv).setReg _ _
  case frame => exact (FlagWrites.setFlags5 _ r c v).sameBytesBut.between_setReg _

end

/-! ### The next state of MUL, DIV and MOD -/

/-- The state after an instruction that gives `r` to `dst`, writes `ZF` and `SF` alone and ends at the cursor (R113,
R194). -/
def State.afterResultZS (s : State) (i : Instr) (dst : Reg) (r : Word) : State :=
  ((s.setReg dst r).setFlagsZS r).setReg .pc (s.cursor i.toStmt.form)

theorem exec_mul_eq_next (s : State) (dst : Reg) (x y : Operand) :
    exec (.mul dst x y) s = .next (s.afterResultZS (.mul dst x y) dst (s.val x * s.val y)) := by
  rw [exec_mul, State.mulTo_eq, State.advance_ok, State.afterResultZS]

section
variable {s : State} (dst : Reg) (x : Operand) {y : Operand}

theorem exec_div_eq_next (h : (s.val y).toNat ≠ 0) :
    exec (.div dst x y) s = .next (s.afterResultZS (.div dst x y) dst (s.val x / s.val y)) := by
  obtain ⟨hzero, -⟩ | ⟨-, hdiv⟩ := State.divTo_cases s dst (s.val x) (s.val y)
  · exact absurd ((word_eq_zero_iff _).mp hzero) h
  · rw [exec_div, hdiv, State.advance_ok, State.afterResultZS]

theorem exec_mod_eq_next (h : (s.val y).toNat ≠ 0) :
    exec (.mod dst x y) s = .next (s.afterResultZS (.mod dst x y) dst (s.val x % s.val y)) := by
  obtain ⟨hzero, -⟩ | ⟨-, hmod⟩ := State.modTo_cases s dst (s.val x) (s.val y)
  · exact absurd ((word_eq_zero_iff _).mp hzero) h
  · rw [exec_mod, hmod, State.advance_ok, State.afterResultZS]

theorem exec_div_of_zero (h : (s.val y).toNat = 0) : exec (.div dst x y) s = .next (s.raise .divisionByZero) := by
  obtain ⟨-, hdiv⟩ | ⟨hne, -⟩ := State.divTo_cases s dst (s.val x) (s.val y)
  · rw [exec_div, hdiv, State.advance_error]
  · exact absurd ((word_eq_zero_iff _).mpr h) hne

theorem exec_mod_of_zero (h : (s.val y).toNat = 0) : exec (.mod dst x y) s = .next (s.raise .divisionByZero) := by
  obtain ⟨-, hmod⟩ | ⟨hne, -⟩ := State.modTo_cases s dst (s.val x) (s.val y)
  · rw [exec_mod, hmod, State.advance_error]
  · exact absurd ((word_eq_zero_iff _).mpr h) hne

end

section
variable (s : State) (i : Instr) {dst : Reg} (r : Word)

theorem State.afterResultZS_reg (h : dst ≠ .pc) : (s.afterResultZS i dst r).reg dst = r := by
  rw [State.afterResultZS, State.reg_setReg_ne _ _ h, State.reg_setFlagsZS, State.reg_setReg_same]

/-- All that MUL, DIV and MOD claim of their next state. The flags that are kept are those of `s` itself, since the write
of `dst` leaves every flag alone. -/
theorem State.afterResultZS_spec {R : Nat} (hR : r.toNat = R) :
    (dst ≠ .pc → ((s.afterResultZS i dst r).reg dst).toNat = R) ∧ HasFlagsZS s (s.afterResultZS i dst r) R ∧
      PcAfter s (s.afterResultZS i dst r) i ∧ SameControl s (s.afterResultZS i dst r) ∧
      SameBytesBut s (s.afterResultZS i dst r) (fun a => InReg dst a ∨ InReg .pc a ∨ InZeroOrSign a) := by
  subst hR
  refine ⟨?value, ?flags, PcAfter.cursor s _ i, ⟨rfl, rfl, rfl, rfl⟩, ?frame⟩
  case value => exact fun h => congrArg BitVec.toNat (s.afterResultZS_reg i r h)
  case flags =>
    simpa only [HasFlagsZS, State.afterResultZS, State.flag_setReg] using (s.setReg dst r).setFlagsZS_hasFlagsZS r
  case frame => exact ((s.setReg dst r).setFlagsZS_sameBytesBut r).between_setReg _

end

/-! ### The next state of CMP -/

theorem exec_cmp_eq_next (s : State) (x y : Operand) :
    exec (.cmp x y) s =
      .next ((s.setFlags5 (s.val x - s.val y) (subBorrow (s.val x) (s.val y))
        (subOverflow (s.val x) (s.val y))).setReg .pc (s.cursor (Instr.cmp x y).toStmt.form)) := by
  rw [exec_cmp, State.compare_eq, State.advance_ok]

/-! ### The obligations -/

/-- Settles O36: the sum modulo 2^32 with its carry and its signed overflow, in `afterResult5`. -/
theorem addWritesSumAndFiveFlags : Obligations.AddWritesSumAndFiveFlags := fun s dst x y =>
  ⟨_, exec_add_eq_next s dst x y,
    s.afterResult5_spec _ _ (BitVec.toNat_add _ _) (addCarry_iff _ _) (addOverflow_iff _ _)⟩

/-- Settles O37: the difference modulo 2^32 with its borrow and its signed overflow, in `afterResult5`. -/
theorem subWritesDifferenceAndFiveFlags : Obligations.SubWritesDifferenceAndFiveFlags := fun s dst x y =>
  ⟨_, exec_sub_eq_next s dst x y,
    s.afterResult5_spec _ _ (toNat_sub_word _ _) (subBorrow_iff _ _) (subOverflow_iff _ _)⟩

/-- Settles O38: the product modulo 2^32, in `afterResultZS`. -/
theorem mulWritesWrappedProduct : Obligations.MulWritesWrappedProduct := fun s dst x y =>
  ⟨_, exec_mul_eq_next s dst x y, s.afterResultZS_spec _ _ (BitVec.toNat_mul _ _)⟩

/-- Settles O39: a non-zero divisor leaves the one case that writes, the quotient in `afterResultZS`. -/
theorem divWritesQuotient : Obligations.DivWritesQuotient := fun s dst x _ hy =>
  ⟨_, exec_div_eq_next dst x hy, s.afterResultZS_spec _ _ BitVec.toNat_udiv⟩

/-- Settles O40: a non-zero divisor leaves the one case that writes, the remainder in `afterResultZS`. -/
theorem modWritesRemainder : Obligations.ModWritesRemainder := fun s dst x _ hy =>
  ⟨_, exec_mod_eq_next dst x hy, s.afterResultZS_spec _ _ BitVec.toNat_umod⟩

/-- Settles O41: both handlers test the divisor before they write anything, so the step is the bare taking of the
fault. -/
theorem zeroDivisorFaults : Obligations.ZeroDivisorFaults := by
  intro s dst x y hy
  rw [exec_div_of_zero dst x hy, exec_mod_of_zero dst x hy]
  exact ⟨.raise s _, .raise s _⟩

/-- Settles O42: the two registers hold quotient and remainder of the same two numbers, which Euclidean division
recomposes. -/
theorem divAndModRecomposeDividend : Obligations.DivAndModRecomposeDividend := by
  intro s d e x y hy hd he
  refine ⟨_, _, exec_div_eq_next d x hy, exec_mod_eq_next e x hy, ?recompose, ?smaller⟩
  case recompose =>
    rw [s.afterResultZS_reg _ _ hd, s.afterResultZS_reg _ _ he, BitVec.toNat_udiv, BitVec.toNat_umod]
    exact (Nat.div_add_mod' _ _).symm
  case smaller =>
    rw [s.afterResultZS_reg _ _ he, BitVec.toNat_umod]
    exact Nat.mod_lt _ (Nat.pos_of_ne_zero hy)

/-- Settles O43: each overflow function is the library's signed overflow, which is a formula of three sign bits. -/
theorem overflowBitFormulasAgree : Obligations.OverflowBitFormulasAgree := by
  intro s dst x y
  exact ⟨_, _, exec_add_eq_next s dst x y, exec_sub_eq_next s dst x y,
    (s.afterResult5_ovf _ _).trans (addOverflow_eq_msb _ _), (s.afterResult5_ovf _ _).trans (subOverflow_eq_msb _ _)⟩

/-- Settles O44: the five flags are written as SUB writes them, and after them only `pc`. -/
theorem cmpWritesFiveFlagsOnly : Obligations.CmpWritesFiveFlagsOnly := by
  intro s x y
  rw [← toNat_sub_word]
  refine ⟨_, exec_cmp_eq_next s x y, ?flags, PcAfter.cursor s _ _, ⟨rfl, rfl, rfl, rfl⟩, ?frame⟩
  case flags => exact (s.setFlags5_hasFlags5 _ (subBorrow_iff _ _) (subOverflow_iff _ _)).setReg _ _
  case frame =>
    simp only [or_comm (a := InReg .pc _)]
    exact (FlagWrites.setFlags5 s _ _ _).sameBytesBut.setReg .pc _

end Sys2Proof.Machine
end

section
/-! PROOFS. CMP read as an order, and TEST (rules R200, R201). -/

namespace Sys2Proof.Machine

/-! ### The order of two words, read off the flags of their difference (R200) -/

theorem word_msb_iff_toInt_neg (r : Word) : r.msb = true ↔ r.toInt < 0 := by
  rw [BitVec.msb_eq_toInt, decide_eq_true_iff]

/-- Without overflow the wrapped difference is the signed one, so its sign bit is that of the difference. -/
theorem sub_msb_iff_of_not_outOfSigned {x y : Word} (h : ¬ OutOfSigned (x.toInt - y.toInt)) :
    (x - y).msb = true ↔ x.toInt < y.toInt := by
  have hwrap : (x - y).toInt = x.toInt - y.toInt := by
    obtain ⟨hlow, hhigh⟩ := not_or.mp h
    rw [BitVec.toInt_sub]
    exact Int.bmod_eq_of_le (by omega) (by omega)
  rw [word_msb_iff_toInt_neg, hwrap, sub_neg]

/-- Overflow means that wrapping moved the signed difference by 2^32 across 0, so its sign bit is the wrong one. -/
theorem sub_msb_iff_of_outOfSigned {x y : Word} (h : OutOfSigned (x.toInt - y.toInt)) :
    (x - y).msb = true ↔ ¬ x.toInt < y.toInt := by
  have hx := x.toInt_lt
  have hx' := x.le_toInt
  have hy := y.toInt_lt
  have hy' := y.le_toInt
  rw [word_msb_iff_toInt_neg, BitVec.toInt_sub, Int.bmod_def]
  unfold OutOfSigned at h
  omega

/-- `SF xor OVF` corrects the sign bit exactly where the difference overflowed. -/
theorem sub_msb_xor_subOverflow_iff (x y : Word) : ((x - y).msb ^^ subOverflow x y) = true ↔ x.toInt < y.toInt := by
  cases hv : subOverflow x y with
  | false =>
    have hfits : ¬ OutOfSigned (x.toInt - y.toInt) := fun h => by simp [(subOverflow_iff x y).mpr h] at hv
    rw [Bool.xor_false, sub_msb_iff_of_not_outOfSigned hfits]
  | true =>
    rw [Bool.xor_true, Bool.not_eq_true', ← Bool.not_eq_true,
      sub_msb_iff_of_outOfSigned ((subOverflow_iff x y).mp hv), not_not]

/-! ### The next state of TEST -/

/-- TEST cannot fault: `ZF` and `SF` of the register's value, then the cursor to `pc` (R113, R201). -/
theorem exec_test_eq_next (s : State) (r : Reg) :
    exec (.test r) s = .next ((s.setFlagsZS (s.reg r)).setReg .pc (s.cursor (Instr.test r).toStmt.form)) := rfl

/-! ### The obligations -/

/-- Settles O45: `ZF` and `CF` are read off the two words directly, `SF xor OVF` by `sub_msb_xor_subOverflow_iff`. -/
theorem cmpOutcomeReadsAsOrder : Obligations.CmpOutcomeReadsAsOrder := by
  intro s x y
  refine ⟨_, exec_cmp_eq_next s x y, ?zero, ?carry, ?signed⟩
  all_goals simp only [State.flag_setReg, State.flag_setFlags5]
  case zero => exact beq_iff_eq.trans sub_eq_zero
  case carry => exact subBorrow_iff _ _
  case signed => exact sub_msb_xor_subOverflow_iff _ _

/-- Settles O46: `ZF` and `SF` are the only flags of the two-flag write, and after them only `pc` is written. -/
theorem testWritesZeroAndSign : Obligations.TestWritesZeroAndSign := by
  intro s r
  refine ⟨_, exec_test_eq_next s r, ?flags, PcAfter.cursor s _ (.test r), ?control, ?frame⟩
  case flags => simpa only [HasFlagsZS, State.flag_setReg] using s.setFlagsZS_hasFlagsZS (s.reg r)
  case control => exact (FlagWrites.setFlagsZS s _).sameControl.setReg .pc _
  case frame =>
    simp only [or_comm (a := InReg .pc _)]
    exact (s.setFlagsZS_sameBytesBut _).setReg .pc _

end Sys2Proof.Machine
end

section
/-! PROOFS. JUMP and the conditional jumps, and CALL followed by RET (rules R210 to R214). -/

namespace Sys2Proof.Machine

/-! ### Jumps -/

/-- A register write leaves alone everything outside memory and every byte outside the register. -/
theorem State.setReg_frame (s : State) (r : Reg) (v : Word) :
    SameControl s (s.setReg r v) ∧ SameBytesBut s (s.setReg r v) (InReg r) :=
  ⟨⟨rfl, rfl, rfl, rfl⟩, s.setReg_sameBytesBut r v⟩

theorem exec_jump (addr : Word) (s : State) : exec (.jump addr) s = .next (s.setReg .pc addr) := rfl

theorem State.jumpIf_taken (s : State) (addr : Word) : s.jumpIf true addr = .next (s.setReg .pc addr) := rfl

theorem State.jumpIf_untaken (s : State) (addr : Word) :
    s.jumpIf false addr = .next (s.setReg .pc (s.cursor [.word])) := rfl

/-- All that a conditional jump claims of its next state: taken or not, `pc` is the one register written. -/
theorem State.jumpIf_spec (s : State) (taken : Bool) (addr : Word) {i : Instr} (hform : i.toStmt.form = [.word]) :
    ∃ t, s.jumpIf taken addr = .next t ∧ (taken = true → t.reg .pc = addr) ∧ (taken = false → PcAfter s t i) ∧
      SameControl s t ∧ SameBytesBut s t (InReg .pc) := by
  cases taken with
  | true => exact ⟨_, s.jumpIf_taken addr, fun _ => s.reg_setReg_same .pc addr, nofun, s.setReg_frame .pc _⟩
  | false => exact ⟨_, s.jumpIf_untaken addr, nofun, fun _ => hform ▸ PcAfter.cursor s s i, s.setReg_frame .pc _⟩

/-! ### CALL, then RET -/

/-- A push that sets `pc` writes no other register but `sp`: its word lies above Region A. -/
theorem State.CanPush.afterPush_reg {s : State} (h : s.CanPush) (v target : Word) {r : Reg} (hsp : r ≠ .sp)
    (hpc : r ≠ .pc) : (s.afterPush v target).reg r = s.reg r := by
  rw [State.afterPush, h.toNat_sub_four, State.reg_setReg_ne _ _ hpc, State.reg_setReg_ne _ _ hsp,
    State.reg_withWord _ _ h.le_slot]

/-- The state after a RET from the state that a CALL leaves. -/
def State.afterCallRet (s : State) (addr : Word) : State :=
  let t := s.afterPush (s.cursor [.word]) addr
  (t.setReg .sp (t.reg .sp + 4)).setReg .pc t.top

theorem State.CanPush.exec_ret_afterPush {s : State} (h : s.CanPush)
    (hbase : (s.reg .sp).toNat ≤ s.params.stackBase) (addr : Word) :
    exec .ret (s.afterPush (s.cursor [.word]) addr) = .next (s.afterCallRet addr) :=
  (h.afterPush_canPop hbase _ _).exec_ret

theorem State.CanPush.afterCallRet_reg_pc {s : State} (h : s.CanPush) (addr : Word) :
    (s.afterCallRet addr).reg .pc = s.reg .pc + 5 := by
  rw [State.afterCallRet, State.reg_setReg_same, h.top_afterPush, State.cursor_call]

theorem State.CanPush.afterCallRet_reg {s : State} (h : s.CanPush) (addr : Word) {r : Reg} (hpc : r ≠ .pc) :
    (s.afterCallRet addr).reg r = s.reg r := by
  rw [State.afterCallRet, State.reg_setReg_ne _ _ hpc]
  by_cases hsp : r = .sp
  · rw [hsp, State.reg_setReg_same, State.afterPush_reg_sp, BitVec.sub_add_cancel]
  · rw [State.reg_setReg_ne _ _ hsp, h.afterPush_reg _ _ hsp hpc]

theorem State.afterCallRet_sameControl (s : State) (addr : Word) : SameControl s (s.afterCallRet addr) :=
  ((s.afterPush_sameControl _ _).setReg .sp _).setReg .pc _

/-! ### The obligations -/

/-- Settles O47: the handler writes the operand to `pc` and tests nothing. -/
theorem jumpSetsPc : Obligations.JumpSetsPc := fun s addr =>
  ⟨_, exec_jump addr s, s.reg_setReg_same .pc addr, s.setReg_frame .pc addr⟩

/-- Settles O48: both are the one conditional jump, on `ZF` and on `CF`, and both have the form of one word. -/
theorem conditionalJumpsFollowTheirFlag : Obligations.ConditionalJumpsFollowTheirFlag := fun s addr =>
  ⟨s.jumpIf_spec (s.flag .zf) addr (i := .jumpIfZero addr) rfl,
    s.jumpIf_spec (s.flag .cf) addr (i := .jumpIfCarry addr) rfl⟩

/-- Settles O51: RET takes the return address that CALL left at the new `sp`, and adds back the 4 that CALL took off. -/
theorem callThenRetReturns : Obligations.CallThenRetReturns := by
  intro s addr hv hlimit hbase
  have hmem := Params.stackBase_succ hv
  have h : s.CanPush := ⟨hv, hlimit, by omega⟩
  exact ⟨_, _, h.exec_call addr, h.exec_ret_afterPush hbase addr, h.afterCallRet_reg_pc addr,
    fun _ hpc => h.afterCallRet_reg addr hpc, s.afterCallRet_sameControl addr⟩

end Sys2Proof.Machine
end

section
/-! PROOFS. NOP, HALT and SYSCALL (rules R220 to R223, R274): what each answer of a host makes of a state, which answer a
handler gives, and that no other instruction than HALT halts the engine. -/

namespace Sys2Proof.Machine

/-! ### How the engine comes to be `Halted` (R274) -/

/-- Of the instructions, HALT alone leaves a state `Halted` that was not: a fault taken is `Faulted`, and the write of
`pc` keeps the engine state that the handler left. -/
theorem Executed.eq_halt {s t : State} {i : Instr} (h : Executed s i t) (hs : s.engine ≠ .halted)
    (ht : t.engine = .halted) : i = .halt := by
  cases h with
  | faulted c => exact absurd ht (by simp)
  | ended w hu =>
    obtain ⟨-, -, hsame | ⟨hi, -⟩⟩ := hu.control
    · exact absurd (hsame.symm.trans ht) hs
    · exact hi

/-! ### The next state of NOP and of HALT -/

theorem exec_nop_eq_next (s : State) : exec .nop s = .next (s.setReg .pc (s.cursor [])) := rfl

theorem exec_halt_eq_next (s : State) :
    exec .halt s = .next ({ s with engine := .halted }.setReg .pc (s.cursor [])) := rfl

/-! ### What a SYSCALL does with an answer (R222) -/

/-- Each answer does what R222 says of it. On `Return(v)`, `pc` is written after `acc` and is another register, so `acc`
keeps `v`; `NoValue` writes `pc` alone; `Fail` writes nothing. -/
theorem State.answered_followsAnswer (s : State) (a : SyscallAnswer) : FollowsAnswer s a (s.answered a) := by
  cases a with
  | value v =>
    rw [State.answered, State.takeAnswer_value, State.advance_ok]
    refine ⟨_, rfl, ?acc, PcAfter.cursor s _ .syscall, rfl, rfl, rfl, rfl, ?frame⟩
    case acc => rw [State.reg_setReg_ne _ _ (by decide), State.reg_setReg_same]
    case frame => exact (State.setReg_sameBytesBut { s with syscalls := s.syscalls + 1 } .acc v).setReg .pc _
  | noValue =>
    rw [State.answered, State.takeAnswer_noValue, State.advance_ok]
    exact ⟨_, rfl, PcAfter.cursor s _ .syscall, rfl, rfl, rfl, rfl,
      State.setReg_sameBytesBut { s with syscalls := s.syscalls + 1 } .pc _⟩
  | fail =>
    rw [State.answered, State.takeAnswer_fail, State.advance_error]
    exact FaultsWith.raise s _

/-- A SYSCALL follows the answer that its handler gives, whatever the handler (R222). -/
theorem exec_syscall_followsAnswer {s : State} {a : SyscallAnswer} (h : s.hostAnswer = a) :
    FollowsAnswer s a (exec .syscall s) := by
  rw [exec_syscall, h]
  exact s.answered_followsAnswer a

/-! ### Which answer a handler gives (R223) -/

theorem State.hostAnswer_absent {s : State} (h : s.params.handler = .absent) : s.hostAnswer = .fail := by
  rw [State.hostAnswer, h, handlerAnswer]

theorem State.hostAnswer_catalogue {s : State} {rows : List SyscallRow} (h : s.params.handler = .catalogue rows) :
    s.hostAnswer = lookupAnswer (s.reg .acc) (s.reg .r0) (s.reg .r1) (s.reg .r2) (s.reg .r3) rows := by
  rw [State.hostAnswer, h, handlerAnswer]

theorem State.hostAnswer_unknown {s : State} (h : s.params.handler = .unknown) :
    s.hostAnswer = Config.hostAnswer s.syscalls (s.reg .acc) (s.reg .r0) (s.reg .r1) (s.reg .r2) (s.reg .r3) := by
  rw [State.hostAnswer, h, handlerAnswer]

section
variable {acc r0 r1 r2 r3 : Word} {row : SyscallRow}

theorem lookupAnswer_cons_of_serves (h : Serves row acc r0 r1 r2 r3) (rows : List SyscallRow) :
    lookupAnswer acc r0 r1 r2 r3 (row :: rows) = row.answer := if_pos h

theorem lookupAnswer_cons_of_not_serves (h : ¬ Serves row acc r0 r1 r2 r3) (rows : List SyscallRow) :
    lookupAnswer acc r0 r1 r2 r3 (row :: rows) = lookupAnswer acc r0 r1 r2 r3 rows := if_neg h

/-- The lookup passes over rows for other words (log entry 3). -/
theorem lookupAnswer_append {before : List SyscallRow} (h : ∀ q ∈ before, ¬ Serves q acc r0 r1 r2 r3)
    (rows : List SyscallRow) :
    lookupAnswer acc r0 r1 r2 r3 (before ++ rows) = lookupAnswer acc r0 r1 r2 r3 rows := by
  induction before with
  | nil => rfl
  | cons q before ih =>
    obtain ⟨hq, hbefore⟩ := List.forall_mem_cons.mp h
    rw [List.cons_append, lookupAnswer_cons_of_not_serves hq, ih hbefore]

theorem lookupAnswer_of_first {before : List SyscallRow} (h : ∀ q ∈ before, ¬ Serves q acc r0 r1 r2 r3)
    (hrow : Serves row acc r0 r1 r2 r3) (after : List SyscallRow) :
    lookupAnswer acc r0 r1 r2 r3 (before ++ row :: after) = row.answer := by
  rw [lookupAnswer_append h, lookupAnswer_cons_of_serves hrow]

/-- Words of no row are those of an operation the catalogue does not have (R222). -/
theorem lookupAnswer_of_unserved {rows : List SyscallRow} (h : ∀ q ∈ rows, ¬ Serves q acc r0 r1 r2 r3) :
    lookupAnswer acc r0 r1 r2 r3 rows = .fail := by
  have hend := lookupAnswer_append h []
  rwa [List.append_nil, lookupAnswer] at hend

end

/-! ### The obligations -/

/-- Settles O18: a terminal state is left as it is and a decoding fault is `Faulted`, so the state came of an instruction
that began with the engine `Running`. -/
theorem onlyHaltHalts : Obligations.OnlyHaltHalts := by
  intro s t hs h ht
  obtain ⟨-, ⟨-, rfl⟩ | ⟨-, ⟨e, -, rfl⟩ | ⟨i, rest, hdecode, hexec⟩⟩⟩ := step_cases h
  · exact absurd ht hs
  · exact absurd ht (by simp)
  · obtain rfl := (executed_of_exec hexec).eq_halt (by simp) ht
    exact ⟨rest, hdecode⟩

/-- Settles O53: a catalogue's answer is the lookup's, and the lookup stops at the first row for the five words. -/
theorem syscallWritesAnswerToAcc : Obligations.SyscallWritesAnswerToAcc := by
  intro s v rows hrows
  have hhost := State.hostAnswer_catalogue hrows
  refine ⟨?value, ?noValue, ?fail, ?first, lookupAnswer_of_unserved⟩
  case value =>
    intro ha
    obtain ⟨t, hnext, hacc, hpc, hparams, hengine, hrecord, hcount, hframe⟩ :=
      exec_syscall_followsAnswer (hhost.trans ha)
    exact ⟨t, hnext, hacc, hpc, hengine, hrecord, hparams, hcount, hframe⟩
  case noValue =>
    intro ha
    obtain ⟨t, hnext, hpc, hparams, hengine, hrecord, hcount, hframe⟩ := exec_syscall_followsAnswer (hhost.trans ha)
    exact ⟨t, hnext, hpc, hengine, hrecord, hparams, hcount, hframe⟩
  case fail => exact fun ha => exec_syscall_followsAnswer (hhost.trans ha)
  case first =>
    rintro before row after rfl hrow hbefore
    exact lookupAnswer_of_first hbefore hrow after

/-- Settles O54: whichever of the three answers the free value is, the SYSCALL follows it. -/
theorem syscallFollowsAnyHost : Obligations.SyscallFollowsAnyHost := by
  intro s h
  have hhost := State.hostAnswer_unknown h
  exact ⟨exec_syscall_followsAnswer hhost, by rw [exec_syscall, hhost], s.answered_followsAnswer⟩

/-- Settles O52: the write of `pc` is all that a NOP does, and it is all that a HALT does to memory. -/
theorem nopAdvancesAndHaltStops : Obligations.NopAdvancesAndHaltStops := fun s =>
  ⟨⟨_, exec_nop_eq_next s, PcAfter.cursor s s .nop, s.setReg_frame .pc _⟩,
    ⟨_, exec_halt_eq_next s, rfl, PcAfter.cursor s _ .halt, rfl, rfl, rfl,
      State.setReg_sameBytesBut { s with engine := .halted } .pc _⟩⟩

/-- Settles O55: without a handler the answer is `Fail`. -/
theorem syscallWithoutHandlerFaults : Obligations.SyscallWithoutHandlerFaults := fun _ h =>
  exec_syscall_followsAnswer (State.hostAnswer_absent h)

end Sys2Proof.Machine
end

section
/-! PROOFS. Faults, terminal states and the validation mode (rules R246, R250, R252, R274): what a step that faults
leaves, that a terminal engine does nothing, and that no operation reads `VALIDATION_MODE`. -/

namespace Sys2Proof.Machine

/-! ### How the engine comes to be `Faulted` (R250) -/

/-- No handler's work ends `Faulted`, so an execution that does has taken a fault, which writes nothing. -/
theorem Executed.eq_raise {s t : State} {i : Instr} (h : Executed s i t) (hs : s.engine ≠ .faulted)
    (ht : t.engine = .faulted) : ∃ c, t = s.raise c := by
  cases h with
  | faulted c => exact ⟨c, rfl⟩
  | ended w hu =>
    obtain ⟨-, -, hsame | ⟨-, hhalted⟩⟩ := hu.control
    · exact absurd (hsame.symm.trans ht) hs
    · exact absurd (hhalted.symm.trans ht) (by decide)

theorem step_eq_raise {s t : State} (h : step s = .next t) (hs : s.engine ≠ .faulted) (ht : t.engine = .faulted) :
    ∃ c, t = s.start.raise c := by
  obtain ⟨-, ⟨-, rfl⟩ | ⟨-, ⟨e, -, rfl⟩ | ⟨i, rest, -, hexec⟩⟩⟩ := step_cases h
  · exact absurd ht hs
  · exact ⟨_, rfl⟩
  · exact (executed_of_exec hexec).eq_raise (by simp) ht

/-! ### Terminal states (R252) -/

theorem step_of_terminal {s : State} (hv : s.params.valid = true) (ht : s.engine.terminal = true) :
    step s = .next s := by
  rw [step, if_pos hv, if_pos ht]

theorem run_of_step_eq_self {m : Host.Core} {s : m.State} (h : m.step s = .next s) (k : Nat) : m.run k s = .next s := by
  induction k with
  | zero => rfl
  | succ k ih =>
    rw [run_succ, h]
    exact ih

/-! ### `VALIDATION_MODE` replaced (R246)

Every operation commutes with the replacement: it gives the same word or the same fault, and the same state in the new
mode. -/

/-- The state with only the validation mode replaced. -/
def State.withMode (v : ValidationMode) (s : State) : State :=
  { s with params := { s.params with validation := v } }

/-- The outcome with the mode replaced in its next state, if it has one. -/
def StepOutcome.withMode (v : ValidationMode) : StepOutcome → StepOutcome
  | .next t => .next (t.withMode v)
  | .fault f => .fault f
  | .refused r => .refused r

section
variable {v : ValidationMode} {s : State}

/-! What is read of a state. -/

theorem State.withMode_fetch : (s.withMode v).fetch = s.fetch := rfl

theorem State.withMode_memRead (addr : Nat) : (s.withMode v).memRead addr = s.memRead addr := rfl

theorem State.withMode_topWord : (s.withMode v).topWord = s.topWord := rfl

theorem State.withMode_hostAnswer : (s.withMode v).hostAnswer = s.hostAnswer := rfl

/-! The shared operations that can be refused. -/

theorem State.withMode_memWrite (addr : Nat) (w : Word) :
    (s.withMode v).memWrite addr w = (s.memWrite addr w).map (State.withMode v) := by
  have hb : (s.withMode v).inBounds addr 4 = s.inBounds addr 4 := rfl
  rw [State.memWrite, State.memWrite, hb]
  split <;> rfl

theorem State.withMode_storeWord (addr w : Word) :
    (s.withMode v).storeWord addr w = (s.storeWord addr w).map (State.withMode v) := by
  have hb : (s.withMode v).inBounds addr.toNat 4 = s.inBounds addr.toNat 4 := rfl
  have hc : collision (s.withMode v).params addr.toNat 4 = collision s.params addr.toNat 4 := rfl
  rw [State.storeWord, State.storeWord, hb, hc, State.withMode_memWrite]
  split
  · cases collision s.params addr.toNat 4 <;> rfl
  · rfl

theorem State.withMode_pushWord (w : Word) :
    (s.withMode v).pushWord w = (s.pushWord w).map (State.withMode v) := by
  have hsp : (s.withMode v).reg .sp = s.reg .sp := rfl
  have hl : (s.withMode v).params.stackLimit = s.params.stackLimit := rfl
  rw [State.pushWord, State.pushWord, hsp, hl, State.withMode_memWrite]
  split
  · rfl
  · cases s.memWrite (s.reg .sp - 4).toNat w <;> rfl

theorem State.withMode_divTo (dst : Reg) (x y : Word) :
    (s.withMode v).divTo dst x y = (s.divTo dst x y).map (State.withMode v) := by
  rw [State.divTo, State.divTo]
  split <;> rfl

theorem State.withMode_modTo (dst : Reg) (x y : Word) :
    (s.withMode v).modTo dst x y = (s.modTo dst x y).map (State.withMode v) := by
  rw [State.modTo, State.modTo]
  split <;> rfl

/-! The two ends of an instruction, and the instructions. -/

theorem State.withMode_advance {f : Form} {r q : Result} (h : q = r.map (State.withMode v)) :
    (s.withMode v).advance f q = (s.advance f r).withMode v := by
  subst h
  cases r <;> rfl

theorem State.withMode_jumpIf (taken : Bool) (addr : Word) :
    (s.withMode v).jumpIf taken addr = (s.jumpIf taken addr).withMode v := by
  cases taken <;> rfl

theorem execLoad_withMode (r : Reg) (addr : Word) :
    execLoad r addr (s.withMode v) = (execLoad r addr s).withMode v := by
  rw [execLoad, execLoad, State.withMode_memRead]
  cases s.memRead addr.toNat <;> rfl

theorem execPop_withMode (r : Reg) : execPop r (s.withMode v) = (execPop r s).withMode v := by
  rw [execPop, execPop, State.withMode_topWord]
  cases s.topWord <;> rfl

theorem execRet_withMode : execRet (s.withMode v) = (execRet s).withMode v := by
  rw [execRet, execRet, State.withMode_topWord]
  cases s.topWord <;> rfl

theorem execCall_withMode (addr : Word) : execCall addr (s.withMode v) = (execCall addr s).withMode v := by
  have hcursor : (s.withMode v).cursor [.word] = s.cursor [.word] := rfl
  rw [execCall, execCall, hcursor, State.withMode_pushWord]
  cases s.pushWord (s.cursor [.word]) <;> rfl

theorem execSyscall_withMode : execSyscall (s.withMode v) = (execSyscall s).withMode v := by
  rw [execSyscall, execSyscall, State.withMode_hostAnswer]
  cases s.hostAnswer <;> rfl

/-- No instruction reads the mode. -/
theorem exec_withMode (i : Instr) : exec i (s.withMode v) = StepOutcome.withMode v (exec i s) := by
  cases i with
  | push r => exact State.withMode_advance (State.withMode_pushWord _)
  | pop r => exact execPop_withMode r
  | load r addr => exact execLoad_withMode r addr
  | store r addr => exact State.withMode_advance (State.withMode_storeWord addr _)
  | divRRR dst x y | divRWR dst x y | divRRW dst x y | divRWW dst x y =>
    exact State.withMode_advance (State.withMode_divTo dst _ _)
  | modRRR dst x y | modRWR dst x y | modRRW dst x y | modRWW dst x y =>
    exact State.withMode_advance (State.withMode_modTo dst _ _)
  | jumpIfZero addr | jumpIfCarry addr => exact State.withMode_jumpIf _ addr
  | call addr => exact execCall_withMode addr
  | ret => exact execRet_withMode
  | syscall => exact execSyscall_withMode
  -- The others are never refused: each is a chain of writes of values that are read.
  | _ => rfl

theorem step_withMode : step (s.withMode v) = StepOutcome.withMode v (step s) := by
  have hv : (s.withMode v).params.valid = s.params.valid := rfl
  have he : (s.withMode v).engine = s.engine := rfl
  have hstart : (s.withMode v).start = s.start.withMode v := rfl
  rw [step, step, hv, he, hstart, State.withMode_fetch]
  split
  · split
    · rfl
    · cases s.start.fetch with
      | error c => rfl
      | ok i => exact exec_withMode i
  · rfl

end

/-! ### The obligations -/

/-- Settles O15: a step into `Faulted` is a fault taken by the started engine, whether in decoding or in execution. -/
theorem faultsArePrecise : Obligations.FaultsArePrecise := by
  intro s t h hs ht
  obtain ⟨c, rfl⟩ := step_eq_raise h hs ht
  exact ⟨rfl, rfl, rfl, c, rfl⟩

/-- Settles O16, by induction on the number of steps. -/
theorem terminalStatesAreInert : Obligations.TerminalStatesAreInert := by
  intro s k hv hs
  have ht : s.engine.terminal = true := by
    obtain hhalted | hfaulted := hs
    · rw [hhalted]; rfl
    · rw [hfaulted]; rfl
  exact run_of_step_eq_self (m := Sys2Proof.core) (step_of_terminal hv ht) k

/-- Settles O23: fetch does not read the mode, and no more does any instruction. -/
theorem validationModeHasNoEffect : Obligations.ValidationModeHasNoEffect := by
  intro s v
  refine step_withMode.trans ?_
  cases step s <;> rfl

end Sys2Proof.Machine
end
